-- ==== Sys2Proof/Word.lean ====
section
/-! DEFINITION. The two word types of the machine: the byte of registers, memory cells, operands and flags
(00_scope.md R4), and the nine-bit program counter (10_state.md R11). -/

namespace Sys2Proof

/-- An unsigned 8-bit value: a register, a memory cell, an operand byte, the flags byte (00_scope.md R4). -/
abbrev Byte := BitVec 8

/-- The program counter, nine bits and unsigned (10_state.md R11). -/
abbrev PcWord := BitVec 9

end Sys2Proof
end

