-- ==== Sys2Proof/Syntax.lean ====
section
/-! DEFINITION. The instruction set as syntax: the four formats (30_encoding.md R38), the 13 entries of the dispatch
table (R40, 40_execution_loop.md R57), and the instructions, one constructor for each row of spec/opcode_table.json. -/

namespace Sys2Proof

/-- The four instruction formats (30_encoding.md R38). -/
inductive Format where
  /-- The opcode byte alone. -/
  | Z
  /-- The opcode byte and a register index. -/
  | R
  /-- The opcode byte, a register index and an 8-bit immediate. -/
  | RI
  /-- The opcode byte and two register indices. -/
  | RR
  deriving DecidableEq, Repr

/-- The 13 entries of the dispatch table, in the order of 30_encoding.md R40. -/
inductive Op where
  | ldi | prn | hlt | add | mul | pop | push | call | ret | cmp | jmp | jeq | jne
  deriving DecidableEq, Repr

/-- One constructor for each row of the opcode table. An operand is the whole operand byte as fetched: a register
index above 7 is representable, and the instruction then raises InvalidRegister (30_encoding.md R39, log entry 7). -/
inductive Instr where
  /-- LDI, load immediate (41_load_print_halt.md R60). -/
  | ldi (a imm : Byte)
  /-- PRN, print register (41_load_print_halt.md R61). -/
  | prn (a : Byte)
  /-- HLT, halt (41_load_print_halt.md R62). -/
  | hlt
  /-- ADD, add registers (42_alu.md R66). -/
  | add (a b : Byte)
  /-- MUL, multiply registers (42_alu.md R67). -/
  | mul (a b : Byte)
  /-- POP, pop into register (43_stack.md R71). -/
  | pop (a : Byte)
  /-- PUSH, push register (43_stack.md R72). -/
  | push (a : Byte)
  /-- CALL, call subroutine (44_control_transfer.md R75). -/
  | call (a : Byte)
  /-- RET, return from subroutine (44_control_transfer.md R76). -/
  | ret
  /-- CMP, compare registers (42_alu.md R68). -/
  | cmp (a b : Byte)
  /-- JMP, jump (44_control_transfer.md R77). -/
  | jmp (a : Byte)
  /-- JEQ, jump if equal (44_control_transfer.md R78). -/
  | jeq (a : Byte)
  /-- JNE, jump if not equal (44_control_transfer.md R79). -/
  | jne (a : Byte)
  /-- An unknown opcode byte with bit 4 set: the machine spins on it (40_execution_loop.md R54). -/
  | unknownStalling (ir : Byte)
  /-- An unknown opcode byte with bit 4 clear: skipped by its decoded length (40_execution_loop.md R53). -/
  | unknownSkipping (ir : Byte)
  deriving DecidableEq, Repr

end Sys2Proof
end

