-- ==== Sys2Proof/Decode.lean ====
section
/-! DEFINITION. The instruction decoder and the dispatch table (30_encoding.md, 40_execution_loop.md R49 to R51), then
the encoder. -/

namespace Sys2Proof

/-! ### The opcode byte -/

/-- The decoded length in bytes, `ir[7:6] + 1` (40_execution_loop.md R49). -/
def decodeLen (ir : Byte) : Nat := (ir.extractLsb' 6 2).toNat + 1

/-- The sets-PC flag, `ir[4]` (40_execution_loop.md R49). -/
def setsPc (ir : Byte) : Bool := ir.getLsbD 4

/-! ### The opcode map -/

/-- The mnemonic of a dispatch table entry (30_encoding.md R40). -/
def Op.mnemonic : Op → String
  | .ldi => "LDI"
  | .prn => "PRN"
  | .hlt => "HLT"
  | .add => "ADD"
  | .mul => "MUL"
  | .pop => "POP"
  | .push => "PUSH"
  | .call => "CALL"
  | .ret => "RET"
  | .cmp => "CMP"
  | .jmp => "JMP"
  | .jeq => "JEQ"
  | .jne => "JNE"

/-- The opcode byte of a dispatch table entry, in the table's binary notation (30_encoding.md R40). -/
def Op.opcode : Op → Byte
  | .ldi => 0b10000010
  | .prn => 0b01000111
  | .hlt => 0b00000001
  | .add => 0b10100000
  | .mul => 0b10100010
  | .pop => 0b01000110
  | .push => 0b01000101
  | .call => 0b01010000
  | .ret => 0b00010001
  | .cmp => 0b10100111
  | .jmp => 0b01010100
  | .jeq => 0b01010101
  | .jne => 0b01010110

/-- The format of a dispatch table entry (30_encoding.md R40). -/
def Op.format : Op → Format
  | .ldi => .RI
  | .prn => .R
  | .hlt => .Z
  | .add => .RR
  | .mul => .RR
  | .pop => .R
  | .push => .R
  | .call => .R
  | .ret => .Z
  | .cmp => .RR
  | .jmp => .R
  | .jeq => .R
  | .jne => .R

/-- How many operand bytes a format uses (30_encoding.md R38). -/
def Format.operandCount : Format → Nat
  | .Z => 0
  | .R => 1
  | .RI => 2
  | .RR => 2

/-- The dispatch table's entries, in the order of 30_encoding.md R40. -/
def Op.all : List Op :=
  [.ldi, .prn, .hlt, .add, .mul, .pop, .push, .call, .ret, .cmp, .jmp, .jeq, .jne]

/-- The dispatch lookup: the entry whose opcode is the whole byte `ir`, if there is one (40_execution_loop.md R50, R57). -/
def dispatch (ir : Byte) : Option Op := Op.all.find? fun op => op.opcode == ir

/-! ### Operand bytes -/

/-- A byte is a legal register index when it is 0 to 7, with no bits masked off (30_encoding.md R39). -/
def isRegIndex (b : Byte) : Bool := decide (b.toNat ≤ 7)

/-- The register-index check of a format passes on the two operand bytes (40_execution_loop.md R51). -/
def registerCheck (f : Format) (opa opb : Byte) : Bool :=
  match f with
  | .Z => true
  | .R => isRegIndex opa
  | .RI => isRegIndex opa
  | .RR => isRegIndex opa && isRegIndex opb

/-- The instruction of an entry with the operand bytes it uses; a byte its format does not use is dropped
(30_encoding.md R38). -/
def Op.instr (op : Op) (opa opb : Byte) : Instr :=
  match op with
  | .ldi => .ldi opa opb
  | .prn => .prn opa
  | .hlt => .hlt
  | .add => .add opa opb
  | .mul => .mul opa opb
  | .pop => .pop opa
  | .push => .push opa
  | .call => .call opa
  | .ret => .ret
  | .cmp => .cmp opa opb
  | .jmp => .jmp opa
  | .jeq => .jeq opa
  | .jne => .jne opa

/-- The instruction of an opcode byte outside the table: its class is bit 4 alone (30_encoding.md R42). -/
def unknownInstr (ir : Byte) : Instr :=
  if setsPc ir then .unknownStalling ir else .unknownSkipping ir

/-! ### The decoder -/

/-- What the machine's decoder makes of the three fetched bytes: total, no byte is refused
(40_execution_loop.md R49, R50). -/
def decodeFetched (ir opa opb : Byte) : Instr :=
  match dispatch ir with
  | some op => op.instr opa opb
  | none => unknownInstr ir

/-- Why a list of bytes is no instruction. -/
inductive DecodeReject where
  /-- The list is empty. -/
  | noOpcode
  /-- The opcode's format uses more operand bytes than the list has. -/
  | missingOperands (op : Op)
  deriving DecidableEq, Repr

/-- The operand bytes a format uses, from the bytes after the opcode, if they are there; a byte it does not use is
given as 0 and dropped by `Op.instr` (30_encoding.md R38). -/
def Format.operandBytes (f : Format) (rest : List Byte) : Option (Byte × Byte) :=
  match f, rest with
  | .Z, _ => some (0, 0)
  | .R, opa :: _ => some (opa, 0)
  | .RI, opa :: opb :: _ => some (opa, opb)
  | .RR, opa :: opb :: _ => some (opa, opb)
  | _, _ => none

/-- The instruction at the head of a list of bytes, which must hold the bytes the instruction uses (30_encoding.md R36,
R38; the machine itself always decodes three fetched bytes, log entry 9). -/
def decode (bytes : List Byte) : Except DecodeReject Instr :=
  match bytes with
  | [] => .error .noOpcode
  | ir :: rest =>
    match dispatch ir with
    | none => .ok (unknownInstr ir)
    | some op =>
      match op.format.operandBytes rest with
      | some p => .ok (op.instr p.1 p.2)
      | none => .error (.missingOperands op)

/-- Byte `k` of an instruction whose bits are `w`, of which the lowest `nbits` count: the first byte is the least
significant (20_memory.md R25, bytes in ascending address order). -/
def tableByte (nbits w k : Nat) : Byte := BitVec.ofNat 8 (w % 2 ^ nbits / 256 ^ k)

/-- The three bytes the machine fetches of an instruction whose bits are `w` as spec/opcode_table.json numbers them. -/
def tableBytes (nbits w : Nat) : List Byte :=
  [tableByte nbits w 0, tableByte nbits w 1, tableByte nbits w 2]

/-- What the decoder reads from an instruction whose bits are `w`. -/
def decodeTableWord (nbits w : Nat) : Option Instr := (decode (tableBytes nbits w)).toOption

/-! ### The encoder -/

/-- The bytes of an instruction, the opcode byte first (30_encoding.md R38, R40, R45). -/
def encode : Instr → List Byte
  | .ldi a imm => [Op.ldi.opcode, a, imm]
  | .prn a => [Op.prn.opcode, a]
  | .hlt => [Op.hlt.opcode]
  | .add a b => [Op.add.opcode, a, b]
  | .mul a b => [Op.mul.opcode, a, b]
  | .pop a => [Op.pop.opcode, a]
  | .push a => [Op.push.opcode, a]
  | .call a => [Op.call.opcode, a]
  | .ret => [Op.ret.opcode]
  | .cmp a b => [Op.cmp.opcode, a, b]
  | .jmp a => [Op.jmp.opcode, a]
  | .jeq a => [Op.jeq.opcode, a]
  | .jne a => [Op.jne.opcode, a]
  | .unknownStalling ir => [ir]
  | .unknownSkipping ir => [ir]

end Sys2Proof
end

