-- ==== Sys2Proof/Config.lean ====
section
/-! DEFINITION. The fixed parameters of the machine (00_scope.md R4) and its reset values (10_state.md R19).
The spec leaves no value open (92_eei_decisions.md), so there is no free value here. -/

namespace Sys2Proof

/-- Number of memory cells; the valid addresses are `0` to `memSize - 1` (00_scope.md R4, 20_memory.md R20). -/
def Config.memSize : Nat := 256

/-- Number of general registers (00_scope.md R4, 10_state.md R8). -/
def Config.regCount : Nat := 8

/-- The reset value of every general register, R7 included (10_state.md R19). -/
def Config.resetReg : Byte := 0x00

/-- The address of the first instruction (10_state.md R19, 20_memory.md R28). -/
def Config.resetPc : PcWord := 0

/-- The reset value of the flags byte (10_state.md R19). -/
def Config.resetFlags : Byte := 0x00

/-- What a memory cell holds that neither the image nor a store has given another value
(70_reset_and_hazards.md R94). -/
def Config.unlistedByte : Byte := 0x00

end Sys2Proof
end

