-- ==== Sys2Proof/Machine/State.lean ====
section
/-! DEFINITION. The state of the machine, which is the tuple of 10_state.md R7 and nothing else, and the state after
reset (10_state.md R19). Plain data throughout. -/

namespace Sys2Proof.Machine

/-- The eight general registers by name; `r7` is the stack pointer (10_state.md R8, R9). -/
inductive Reg where
  | r0 | r1 | r2 | r3 | r4 | r5 | r6 | r7
  deriving DecidableEq, Repr

/-- The stack pointer's place in the register file (00_scope.md R4, `SP_INDEX`). -/
abbrev Reg.sp : Reg := .r7

/-- The register file `x[0..7]` (10_state.md R8). -/
structure Regs where
  r0 : Byte
  r1 : Byte
  r2 : Byte
  r3 : Byte
  r4 : Byte
  r5 : Byte
  r6 : Byte
  r7 : Byte
  deriving DecidableEq, Repr

/-- The run state of the execution loop (10_state.md R15). -/
inductive Status where
  /-- One instruction is executed at each step. -/
  | running
  /-- Entered by HLT; no further step. -/
  | halted
  /-- Entered by a fault; no further step. -/
  | faulted
  deriving DecidableEq, Repr

/-- The causes of a fault of the machine, values of the `fault` component (10_state.md R15, 60_exceptions.md R80).
A cause is a value in the state, not an outcome of the step. -/
inductive Cause where
  /-- Cause 1: a memory access above address 255 (60_exceptions.md R81). -/
  | outOfBounds
  /-- Cause 2: a register operand above 7 (60_exceptions.md R82). -/
  | invalidRegister
  /-- Cause 3: an ALU request other than ADD, MUL, CMP; no program reaches it (60_exceptions.md R83). -/
  | unsupportedAluOperation
  deriving DecidableEq, Repr

/-- The numeric cause code (60_exceptions.md R80). -/
def Cause.code : Cause → Nat
  | .outOfBounds => 1
  | .invalidRegister => 2
  | .unsupportedAluOperation => 3

/-- The memory array as its cells that differ from what an unlisted address reads as, by rising address
(log entry 1). -/
abbrev Memory := List Host.Cell

/-- Every listed cell is at `lo` or above, inside the memory, above the cell before it, and differs from the unlisted
byte. -/
def Memory.wfFrom (lo : Nat) : Memory → Bool
  | [] => true
  | (addr, v) :: rest =>
    decide (lo ≤ addr) && decide (addr < Config.memSize) && decide (v ≠ Config.unlistedByte)
      && Memory.wfFrom (addr + 1) rest

/-- The canonical form: addresses strictly rising and below 256, no cell that holds the unlisted byte. -/
def Memory.wf (m : Memory) : Bool := Memory.wfFrom 0 m

/-- The whole state (10_state.md R7). -/
structure State where
  /-- `x[0..7]`, the general registers (R8). -/
  x : Regs
  /-- `pc`, the address of the next opcode byte (R11). -/
  pc : PcWord
  /-- `FL`, the flags byte (R13). -/
  fl : Byte
  /-- `status`, the run state (R15). -/
  status : Status
  /-- `fault`, NONE or the cause of the fault (R15). -/
  fault : Option Cause
  /-- `mem[0..255]`, code, data and stack alike (R16). -/
  mem : Memory
  /-- `out`, every value PRN has emitted, oldest first (R17). -/
  out : List Byte
  deriving DecidableEq, Repr

/-- Reasons for the step to stop without a next state. There are none, and the type has no constructor: the step is a
total function (00_scope.md R5, 40_execution_loop.md R59), and a fault of the spec is the next state FAULTED
(60_exceptions.md R86, log entry 4). Nobody raises one, which is safe. -/
inductive Fault : Type
  deriving DecidableEq, Repr

/-- Reasons for the model to give an instruction no meaning. -/
inductive Refusal where
  /-- Raised by an arm of `exec` whose instruction has no meaning yet; no arm of this model does. Safe: the model stops
  where the hardware goes on. -/
  | notModelled (mnemonic : String)
  deriving DecidableEq, Repr

/-- The state after reset with the image of the empty program (10_state.md R19, 70_reset_and_hazards.md R93, R94,
log entry 2). -/
def State.reset : State where
  x := { r0 := Config.resetReg, r1 := Config.resetReg, r2 := Config.resetReg, r3 := Config.resetReg,
         r4 := Config.resetReg, r5 := Config.resetReg, r6 := Config.resetReg, r7 := Config.resetReg }
  pc := Config.resetPc
  fl := Config.resetFlags
  status := .running
  fault := none
  mem := []
  out := []

end Sys2Proof.Machine
end

