-- ==== Sys2Proof/Machine/Flags.lean ====
section
/-! DEFINITION. The flags byte: the three values CMP writes and the one test JEQ and JNE make (10_state.md R13, R14). -/

namespace Sys2Proof.Machine

/-- LESS_THAN (10_state.md R13). -/
def flLess : Byte := 0b100

/-- GREATER_THAN (10_state.md R13). -/
def flGreater : Byte := 0b010

/-- EQUAL (10_state.md R13). -/
def flEqual : Byte := 0b001

/-- The whole flags byte CMP writes for two register values, compared as unsigned bytes (42_alu.md R68). -/
def compareFlags (u v : Byte) : Byte :=
  if u < v then flLess else if v < u then flGreater else flEqual

/-- The condition of JEQ, false for JNE: the whole flags byte is EQUAL (44_control_transfer.md R73). -/
def isEqual (fl : Byte) : Bool := fl == flEqual

end Sys2Proof.Machine
end

