-- ==== Sys2Proof/Machine/Operands.lean ====
section
/-! DEFINITION. The operand forms: a register operand is a whole byte, checked before the handler's first effect
(30_encoding.md R39, 40_execution_loop.md R51). An immediate is its byte and needs no operation. -/

namespace Sys2Proof.Machine

/-- The register a byte names, if it is 0 to 7; no bits are masked off (30_encoding.md R39). -/
def Reg.ofByte (b : Byte) : Option Reg :=
  match b.toNat with
  | 0 => some .r0
  | 1 => some .r1
  | 2 => some .r2
  | 3 => some .r3
  | 4 => some .r4
  | 5 => some .r5
  | 6 => some .r6
  | 7 => some .r7
  | _ => none

/-- The operand byte that names a register (30_encoding.md R45). -/
def Reg.toByte : Reg → Byte
  | .r0 => 0
  | .r1 => 1
  | .r2 => 2
  | .r3 => 3
  | .r4 => 4
  | .r5 => 5
  | .r6 => 6
  | .r7 => 7

/-- Formats R and RI: InvalidRegister before anything else if the byte names no register, else the handler on the
register (40_execution_loop.md R51). -/
def withReg (a : Byte) (handler : Reg → Except Cause State) : Except Cause State :=
  match Reg.ofByte a with
  | some r => handler r
  | none => .error .invalidRegister

/-- Format RR: both bytes are checked before the handler's first effect, one InvalidRegister for either or both
(40_execution_loop.md R51, R55). -/
def withRegs (a b : Byte) (handler : Reg → Reg → Except Cause State) : Except Cause State :=
  withReg a fun ra => withReg b fun rb => handler ra rb

end Sys2Proof.Machine
end

