-- ==== Sys2Proof/Machine/Ops.lean ====
section
/-! DEFINITION. The named operations over registers, memory, stack and program counter that the meanings share, the
fetch, and the entry to a fault. -/

namespace Sys2Proof.Machine

/-! ### The register file -/

/-- Reads `x[r]` (10_state.md R8). -/
def Regs.get (x : Regs) (r : Reg) : Byte :=
  match r with
  | .r0 => x.r0
  | .r1 => x.r1
  | .r2 => x.r2
  | .r3 => x.r3
  | .r4 => x.r4
  | .r5 => x.r5
  | .r6 => x.r6
  | .r7 => x.r7

/-- Writes `x[r]`; no register is hard-wired (10_state.md R8). -/
def Regs.set (x : Regs) (r : Reg) (v : Byte) : Regs :=
  match r with
  | .r0 => { x with r0 := v }
  | .r1 => { x with r1 := v }
  | .r2 => { x with r2 := v }
  | .r3 => { x with r3 := v }
  | .r4 => { x with r4 := v }
  | .r5 => { x with r5 := v }
  | .r6 => { x with r6 := v }
  | .r7 => { x with r7 := v }

/-- `x[r]` of a state. -/
def State.reg (s : State) (r : Reg) : Byte := s.x.get r

/-- `x[r] <- v`. -/
def State.setReg (s : State) (r : Reg) (v : Byte) : State := { s with x := s.x.set r v }

/-! ### The memory array -/

/-- The byte at an address: the listed one, or the unlisted byte. -/
def Memory.read (m : Memory) (addr : Nat) : Byte :=
  match m with
  | [] => Config.unlistedByte
  | (a, v) :: rest => if a = addr then v else Memory.read rest addr

/-- Takes every entry for an address out of the list. -/
def Memory.erase (m : Memory) (addr : Nat) : Memory := m.filter fun c => decide (c.1 ≠ addr)

/-- Puts an entry before the first entry of a higher address. -/
def Memory.insert (m : Memory) (addr : Nat) (v : Byte) : Memory :=
  match m with
  | [] => [(addr, v)]
  | (a, w) :: rest => if addr < a then (addr, v) :: (a, w) :: rest else (a, w) :: Memory.insert rest addr v

/-- Stores a byte and keeps the canonical form: the unlisted byte is stored by listing nothing. -/
def Memory.write (m : Memory) (addr : Nat) (v : Byte) : Memory :=
  if v = Config.unlistedByte then Memory.erase m addr else Memory.insert (Memory.erase m addr) addr v

/-- `MemRead(addr, 1)` (20_memory.md R21, R23). -/
def memRead (addr : Nat) (s : State) : Except Cause Byte :=
  if addr < Config.memSize then .ok (Memory.read s.mem addr) else .error .outOfBounds

/-- `MemWrite(addr, 1, v)` (20_memory.md R22, R23). -/
def memWrite (addr : Nat) (v : Byte) (s : State) : Except Cause State :=
  if addr < Config.memSize then .ok { s with mem := Memory.write s.mem addr v } else .error .outOfBounds

/-- The byte at a data address, which is one byte wide and so always inside the memory: what a reader of a state sees. -/
def State.byteAt (s : State) (addr : Nat) : Byte := Memory.read s.mem addr

/-! ### The image -/

/-- The cells of a program placed from address `base` upward (70_reset_and_hazards.md R94). -/
def imageFrom (base : Nat) : List Byte → Memory
  | [] => []
  | v :: rest => if v = Config.unlistedByte then imageFrom (base + 1) rest else (base, v) :: imageFrom (base + 1) rest

/-- Reset with a program as the image; a program of more than 256 bytes has no image
(70_reset_and_hazards.md R93, R94). The state before a reset does not matter, so it is no argument. -/
def resetWith (program : List Byte) : Option State :=
  if program.length ≤ Config.memSize then some { State.reset with mem := imageFrom 0 program } else none

/-! ### The program counter -/

/-- Widens a byte to the program counter with zeros (00_scope.md, notation `zext_9`; 44_control_transfer.md R73). -/
def zext9 (v : Byte) : PcWord := v.setWidth 9

/-- `pc <- target`. -/
def State.setPc (s : State) (target : PcWord) : State := { s with pc := target }

/-- The program-counter update at the end of a step, from the opcode byte and the state the handler left: the decoded
length is added if the machine is still RUNNING and bit 4 is clear (40_execution_loop.md R52). -/
def pcUpdate (ir : Byte) (s : State) : State :=
  if s.status = .running ∧ setsPc ir = false then s.setPc (s.pc + BitVec.ofNat 9 (decodeLen ir)) else s

/-! ### Faults -/

/-- Fault entry: `status <- FAULTED`, `fault <- code`, and nothing else (60_exceptions.md R86). There is no return from
a fault (R87); only a new reset leaves FAULTED. -/
def raise (c : Cause) (s : State) : State := { s with status := .faulted, fault := some c }

/-- How a step ends once its handler has run on `s`: the program-counter update on what the handler left, or, when the
handler raised a cause, fault entry on `s` itself, so that nothing else of the step's effects happens
(40_execution_loop.md R52, R55, 60_exceptions.md R86). -/
def complete (ir : Byte) (s : State) (handled : Except Cause State) : Host.Outcome State Fault Refusal :=
  match handled with
  | .ok t => .next (pcUpdate ir t)
  | .error c => .next (raise c s)

/-! ### The stack -/

/-- `x[7] <- (x[7] - 1) mod 256` (43_stack.md R69). -/
def decSp (s : State) : State := s.setReg .sp (s.reg .sp - 1)

/-- `x[7] <- (x[7] + 1) mod 256` (43_stack.md R70). -/
def incSp (s : State) : State := s.setReg .sp (s.reg .sp + 1)

/-- `MemWrite(x[7], 1, v)`: the store of a push, at the pointer as it stands (43_stack.md R69). -/
def storeTop (v : Byte) (s : State) : Except Cause State := memWrite (s.reg .sp).toNat v s

/-- `MemRead(x[7], 1)`: the read of a pop, at the pointer as it stands (43_stack.md R70). -/
def loadTop (s : State) : Except Cause Byte := memRead (s.reg .sp).toNat s

/-- `push(v)`: decrement, then store at the new pointer (43_stack.md R69). -/
def push (v : Byte) (s : State) : Except Cause State := storeTop v (decSp s)

/-- `pop()`: the byte at the pointer, and the state with the pointer incremented (43_stack.md R70). -/
def pop (s : State) : Except Cause (Byte × State) := (loadTop s).map fun v => (v, incSp s)

/-! ### Fetch -/

/-- The fetch: three reads in order, always all three, the first bad address faulting (40_execution_loop.md R48). -/
def fetch (s : State) : Except Cause (Byte × Byte × Byte) :=
  (memRead s.pc.toNat s).bind fun ir =>
  (memRead (s.pc.toNat + 1) s).bind fun opa =>
  (memRead (s.pc.toNat + 2) s).bind fun opb => .ok (ir, opa, opb)

/-- Bytes placed from an address upward; those above the top of memory are dropped. The model's own, for
`State.withFetchWord` (log entry 12). -/
def placeBytes (addr : Nat) : List Byte → State → State
  | [], s => s
  | v :: rest, s =>
    placeBytes (addr + 1) rest
      (if addr < Config.memSize then { s with mem := Memory.write s.mem addr v } else s)

end Sys2Proof.Machine
end

