-- ==== Sys2Proof/Machine/Alu.lean ====
section
/-! DEFINITION. The arithmetic and comparison unit and the meanings of ADD, MUL and CMP (42_alu.md). -/

namespace Sys2Proof.Machine

/-- The ALU: the operation select is an entry of the dispatch table, and an operation outside ADD, MUL, CMP raises
UnsupportedALUOperation (42_alu.md R63, R65). The three entries that reach it are its own, so no program can raise it. -/
def alu (op : Op) (ra rb : Reg) (s : State) : Except Cause State :=
  match op with
  | .add => .ok (s.setReg ra (s.reg ra + s.reg rb))
  | .mul => .ok (s.setReg ra (s.reg ra * s.reg rb))
  | .cmp => .ok { s with fl := compareFlags (s.reg ra) (s.reg rb) }
  | .ldi => .error .unsupportedAluOperation
  | .prn => .error .unsupportedAluOperation
  | .hlt => .error .unsupportedAluOperation
  | .pop => .error .unsupportedAluOperation
  | .push => .error .unsupportedAluOperation
  | .call => .error .unsupportedAluOperation
  | .ret => .error .unsupportedAluOperation
  | .jmp => .error .unsupportedAluOperation
  | .jeq => .error .unsupportedAluOperation
  | .jne => .error .unsupportedAluOperation

/-- ADD: `x[a] <- (x[a] + x[b]) mod 256` (42_alu.md R66). -/
def execAdd (a b : Byte) (s : State) : Host.Outcome State Fault Refusal :=
  complete Op.add.opcode s (withRegs a b fun ra rb => alu .add ra rb s)

/-- MUL: `x[a] <- (x[a] * x[b]) mod 256` (42_alu.md R67). -/
def execMul (a b : Byte) (s : State) : Host.Outcome State Fault Refusal :=
  complete Op.mul.opcode s (withRegs a b fun ra rb => alu .mul ra rb s)

/-- CMP: the whole of `FL` from the unsigned comparison of `x[a]` and `x[b]` (42_alu.md R68). -/
def execCmp (a b : Byte) (s : State) : Host.Outcome State Fault Refusal :=
  complete Op.cmp.opcode s (withRegs a b fun ra rb => alu .cmp ra rb s)

end Sys2Proof.Machine
end

