-- ==== Sys2Proof/Machine/ControlTransfer.lean ====
section
/-! DEFINITION. The meanings of CALL, RET, JMP, JEQ and JNE (44_control_transfer.md). All five position `pc`
themselves; the loop's own advance does nothing for them. -/

namespace Sys2Proof.Machine

/-- `pc <- zext_9(x[r])` (44_control_transfer.md R73). -/
def jumpTo (r : Reg) (s : State) : State := s.setPc (zext9 (s.reg r))

/-- `pc <- pc + 2`, what a conditional jump that is not taken does itself (44_control_transfer.md R73). -/
def fallThrough (s : State) : State := s.setPc (s.pc + 2)

/-- The byte CALL pushes, `pc + 2`; for every instruction that gets past the fetch it is at most 255, so that nothing is
cut off (40_execution_loop.md R56, 44_control_transfer.md R75, log entry 6). -/
def returnAddress (s : State) : Byte := (s.pc + 2).setWidth 8

/-- CALL: push the return address, then read `x[a]` for the target (44_control_transfer.md R75). -/
def execCall (a : Byte) (s : State) : Host.Outcome State Fault Refusal :=
  complete Op.call.opcode s (withReg a fun r => (push (returnAddress s) s).map fun t => jumpTo r t)

/-- RET: pop a byte into `pc` (44_control_transfer.md R76). -/
def execRet (s : State) : Host.Outcome State Fault Refusal :=
  complete Op.ret.opcode s ((pop s).map fun p => p.2.setPc (zext9 p.1))

/-- JMP: `pc <- x[a]` (44_control_transfer.md R77). -/
def execJmp (a : Byte) (s : State) : Host.Outcome State Fault Refusal :=
  complete Op.jmp.opcode s (withReg a fun r => .ok (jumpTo r s))

/-- JEQ: `pc <- x[a]` if FL is EQUAL, else `pc + 2` (44_control_transfer.md R78). -/
def execJeq (a : Byte) (s : State) : Host.Outcome State Fault Refusal :=
  complete Op.jeq.opcode s (withReg a fun r => .ok (if isEqual s.fl then jumpTo r s else fallThrough s))

/-- JNE: `pc <- x[a]` if FL is not EQUAL, else `pc + 2` (44_control_transfer.md R79). -/
def execJne (a : Byte) (s : State) : Host.Outcome State Fault Refusal :=
  complete Op.jne.opcode s (withReg a fun r => .ok (if isEqual s.fl then fallThrough s else jumpTo r s))

end Sys2Proof.Machine
end

