-- ==== Sys2Proof/Machine/LoadPrintHalt.lean ====
section
/-! DEFINITION. The meanings of LDI, PRN and HLT (41_load_print_halt.md). -/

namespace Sys2Proof.Machine

/-- LDI: `x[a] <- b` (41_load_print_halt.md R60). -/
def execLdi (a imm : Byte) (s : State) : Host.Outcome State Fault Refusal :=
  complete Op.ldi.opcode s (withReg a fun r => .ok (s.setReg r imm))

/-- PRN: `out <- out ++ [x[a]]` (41_load_print_halt.md R61). -/
def execPrn (a : Byte) (s : State) : Host.Outcome State Fault Refusal :=
  complete Op.prn.opcode s (withReg a fun r => .ok { s with out := s.out ++ [s.reg r] })

/-- HLT: `status <- HALTED`, which keeps the loop from advancing `pc` (41_load_print_halt.md R62). -/
def execHlt (s : State) : Host.Outcome State Fault Refusal :=
  complete Op.hlt.opcode s (.ok { s with status := .halted })

end Sys2Proof.Machine
end

