-- ==== Sys2Proof/Machine/Stack.lean ====
section
/-! DEFINITION. The meanings of POP and PUSH (43_stack.md). The order of reads and writes shows when the operand is
R7. -/

namespace Sys2Proof.Machine

/-- POP: read at the pointer, write `x[a]`, and only then increment the pointer (43_stack.md R71). -/
def execPop (a : Byte) (s : State) : Host.Outcome State Fault Refusal :=
  complete Op.pop.opcode s (withReg a fun r => (loadTop s).map fun v => incSp (s.setReg r v))

/-- PUSH: decrement the pointer, and only then read `x[a]`, which is stored at the new pointer (43_stack.md R72). -/
def execPush (a : Byte) (s : State) : Host.Outcome State Fault Refusal :=
  complete Op.push.opcode s (withReg a fun r => storeTop ((decSp s).reg r) (decSp s))

end Sys2Proof.Machine
end

