-- ==== Sys2Proof/Machine/Unknown.lean ====
section
/-! DEFINITION. The meanings of the unknown opcodes: no handler and no register check, only the program-counter update
(30_encoding.md R42). -/

namespace Sys2Proof.Machine

/-- Bit 4 set: the loop does not advance `pc` and nothing else moves it, so the state maps to itself
(40_execution_loop.md R54). -/
def execUnknownStalling (ir : Byte) (s : State) : Host.Outcome State Fault Refusal :=
  complete ir s (.ok s)

/-- Bit 4 clear: a no-op of the decoded length, 1 to 4 bytes (40_execution_loop.md R53). -/
def execUnknownSkipping (ir : Byte) (s : State) : Host.Outcome State Fault Refusal :=
  complete ir s (.ok s)

end Sys2Proof.Machine
end

