-- ==== Sys2Proof/Machine/Step.lean ====
section
/-! DEFINITION. The step of the machine (40_execution_loop.md R47, R55, R59). -/

namespace Sys2Proof.Machine

/-- One step. RUNNING: fetch, and on a fetch fault enter FAULTED, else decode and run the instruction. HALTED and
FAULTED: the state never changes again (40_execution_loop.md R47, log entry 3). -/
def step (s : State) : Host.Outcome State Fault Refusal :=
  match s.status with
  | .running =>
    match fetch s with
    | .ok (ir, opa, opb) => exec (decodeFetched ir opa opb) s
    | .error c => .next (raise c s)
  | .halted => .next s
  | .faulted => .next s

/-- The state with an instruction's three fetched bytes placed where the next fetch reads, at `pc` upward
(log entry 12). -/
def State.withFetchWord (s : State) (nbits w : Nat) : State := placeBytes s.pc.toNat (tableBytes nbits w) s

end Sys2Proof.Machine
end

