-- ==== Sys2Proof/Safety.lean ====
section
/-! DEFINITION. What counts as the end of a run and as a state a run can be in (10_state.md R13, R15,
40_execution_loop.md R56, 70_reset_and_hazards.md R99), and the three bytes a step fetches, in the terms claims use. -/

namespace Sys2Proof.Machine

/-- A run has ended with success: only HLT gets there, and FAULTED is never a success (10_state.md R15). -/
abbrev State.succeeded (s : State) : Prop := s.status = .halted

/-- A run has ended in failure, with the cause in `fault` (70_reset_and_hazards.md R99). -/
abbrev State.failed (s : State) : Prop := s.status = .faulted

/-- The byte at `pc`, which the step fetches as the opcode (40_execution_loop.md R48). -/
def State.opcodeAt (s : State) : Byte := s.byteAt s.pc.toNat

/-- The byte at `pc + 1`, which the step fetches as `operand_a` (40_execution_loop.md R48). -/
def State.operandA (s : State) : Byte := s.byteAt (s.pc.toNat + 1)

/-- The byte at `pc + 2`, which the step fetches as `operand_b` (40_execution_loop.md R48). -/
def State.operandB (s : State) : Byte := s.byteAt (s.pc.toNat + 2)

/-- The flags byte is 0x00 or one of the three values CMP writes (10_state.md R13). -/
abbrev State.flagsLegal (s : State) : Prop :=
  s.fl = 0x00 ∨ s.fl = flEqual ∨ s.fl = flGreater ∨ s.fl = flLess

/-- `fault` is NONE exactly when the machine is not FAULTED, and cause 3 is never recorded (10_state.md R15,
60_exceptions.md R83). -/
abbrev State.faultLegal (s : State) : Prop :=
  (s.fault = none ↔ s.status ≠ .faulted) ∧ s.fault ≠ some .unsupportedAluOperation

/-- The invariant of the machine: memory in canonical form, legal flags, `pc` at most 257, `fault` in step with
`status`. -/
abbrev State.inv (s : State) : Prop :=
  Memory.wf s.mem = true ∧ s.flagsLegal ∧ s.pc.toNat ≤ 257 ∧ s.faultLegal

end Sys2Proof.Machine
end

