-- ==== Sys2Proof/WellFormed.lean ====
section
/-! DEFINITION. Which terms of `Instr` are instructions that pass the decoder's checks: every register operand is 0 to
7 (40_execution_loop.md R51), and an unknown opcode is a byte outside the table, in its class (30_encoding.md R42). -/

namespace Sys2Proof

/-- The checks a well-formed instruction passes (30_encoding.md R39, R42, 40_execution_loop.md R51). -/
def Instr.wellFormed : Instr → Bool
  | .ldi a imm => registerCheck Op.ldi.format a imm
  | .prn a => registerCheck Op.prn.format a 0
  | .hlt => registerCheck Op.hlt.format 0 0
  | .add a b => registerCheck Op.add.format a b
  | .mul a b => registerCheck Op.mul.format a b
  | .pop a => registerCheck Op.pop.format a 0
  | .push a => registerCheck Op.push.format a 0
  | .call a => registerCheck Op.call.format a 0
  | .ret => registerCheck Op.ret.format 0 0
  | .cmp a b => registerCheck Op.cmp.format a b
  | .jmp a => registerCheck Op.jmp.format a 0
  | .jeq a => registerCheck Op.jeq.format a 0
  | .jne a => registerCheck Op.jne.format a 0
  | .unknownStalling ir => (dispatch ir).isNone && setsPc ir
  | .unknownSkipping ir => (dispatch ir).isNone && !setsPc ir

end Sys2Proof
end

