-- ==== Sys2Proof/Certificates/Slice0/Obligations.lean ====
section
/-! DEFINITION. The statements for the provers: reset and the image, the encoding, the step, the rule of each
instruction, faults, what each instruction leaves alone, whole-machine rules, invariants and runs. -/

open Sys2Proof Sys2Proof.Machine

/-! ### Reset and the image -/

/-- R19, with the image of R94: after reset from any program that fits, every component has the stated value. -/
def Obligations.ResetLeavesEveryComponent : Prop :=
  ∀ program : List Byte, program.length ≤ 256 →
    ∃ s : State, resetWith program = some s ∧
      (∀ r : Reg, s.reg r = 0x00) ∧ s.pc = 0 ∧ s.fl = 0x00 ∧ s.status = .running ∧ s.fault = none ∧ s.out = [] ∧
      (∀ i : Nat, ∀ h : i < program.length, s.byteAt i = program[i]) ∧
      (∀ i : Nat, program.length ≤ i → i ≤ 255 → s.byteAt i = 0x00)

/-- The model's choice (log entry 2): `State.reset` is the reset with the empty program, and a program of more than 256
bytes has no image (R94 makes the length a precondition). -/
def Obligations.ResetIsTheEmptyImage : Prop :=
  resetWith [] = some State.reset ∧ Sys2Proof.core.reset = State.reset ∧
    ∀ program : List Byte, 256 < program.length → resetWith program = none

/-! ### Encoding -/

/-- R40: the 13 rows in the table's order, with mnemonic, opcode, format, length and sets-PC flag. -/
def Obligations.OpcodeMapIsTheTable : Prop :=
  Op.all.map (fun op => (op.mnemonic, op.opcode.toNat, op.format, decodeLen op.opcode, setsPc op.opcode)) =
    [("LDI", 0x82, .RI, 3, false), ("PRN", 0x47, .R, 2, false), ("HLT", 0x01, .Z, 1, false),
     ("ADD", 0xA0, .RR, 3, false), ("MUL", 0xA2, .RR, 3, false), ("POP", 0x46, .R, 2, false),
     ("PUSH", 0x45, .R, 2, false), ("CALL", 0x50, .R, 2, true), ("RET", 0x11, .Z, 1, true),
     ("CMP", 0xA7, .RR, 3, false), ("JMP", 0x54, .R, 2, true), ("JEQ", 0x55, .R, 2, true),
     ("JNE", 0x56, .R, 2, true)]

/-- R49: length and sets-PC flag of every byte value, from bits 7:6 and bit 4 alone. -/
def Obligations.DecodedLengthAndSetsPc : Prop :=
  ∀ ir : Byte, decodeLen ir = ir.toNat / 64 + 1 ∧ decodeLen ir ≤ 4 ∧ (setsPc ir = true ↔ ir.toNat / 16 % 2 = 1)

/-- R41 (which the spec marks as derived), R50: the lookup is on the whole byte, bits 7:6 count the operand bytes, and
bit 4 is set exactly for the five instructions that position `pc`. -/
def Obligations.OpcodeBitsAgreeWithOperands : Prop :=
  (∀ (ir : Byte) (op : Op), dispatch ir = some op ↔ op.opcode = ir) ∧
  (∀ op : Op, op.opcode.toNat / 64 = op.format.operandCount) ∧
  (∀ op : Op, setsPc op.opcode = true ↔ op = .call ∨ op = .ret ∨ op = .jmp ∨ op = .jeq ∨ op = .jne)

/-- R42: the class of an unknown opcode byte is bit 4 alone; how many byte values skip, by length 1 to 4, and how many
stall. -/
def Obligations.UnknownOpcodeClasses : Prop :=
  (∀ ir opa opb : Byte, dispatch ir = none → decodeFetched ir opa opb =
    if ir.toNat / 16 % 2 = 1 then .unknownStalling ir else .unknownSkipping ir) ∧
  ([1, 2, 3, 4].map fun len => (((List.range 256).map (BitVec.ofNat 8)).filter fun ir =>
      (dispatch ir).isNone && !setsPc ir && decodeLen ir == len).length) = [31, 29, 28, 32] ∧
  (((List.range 256).map (BitVec.ofNat 8)).filter fun ir => (dispatch ir).isNone && setsPc ir).length = 123

/-- Words written out from the spec's encodings decode to the instructions they stand for. -/
def Obligations.SpecWordsDecode : Prop :=
  decode [0b10000010, 0x00, 0x08] = .ok (.ldi 0 8) ∧ decode [0b01000111, 0x00] = .ok (.prn 0) ∧
  decode [0b00000001] = .ok .hlt ∧ decode [0b10100010, 0x00, 0x01] = .ok (.mul 0 1) ∧
  decode [0b01000101, 0x07] = .ok (.push 7) ∧ decode [0b01010000, 0x01] = .ok (.call 1) ∧
  decode [0b11000011] = .ok (.unknownSkipping 0xC3) ∧ decode [0b00010000] = .ok (.unknownStalling 0x10)

/-- Decoding the encoding of a well-formed instruction gives it back, whatever bytes follow it. -/
def Obligations.DecodeOfEncode : Prop :=
  ∀ i : Instr, i.wellFormed = true → ∀ rest : List Byte, decode (encode i ++ rest) = .ok i

/-- What decodes to an instruction begins with that instruction's encoding: each word has one meaning, and no bit of it
is dropped. -/
def Obligations.EncodeOfDecode : Prop :=
  ∀ (bytes : List Byte) (i : Instr), decode bytes = .ok i → ∃ rest : List Byte, bytes = encode i ++ rest

/-! ### The step -/

/-- R48, R50: a step runs the instruction that the three bytes at `pc` decode to. That it adds nothing around `exec` is
the model's choice (log entry 10): R52 has the loop advance `pc` after the handler, and here each meaning ends with that
update. -/
def Obligations.StepRunsDecodedInstruction : Prop :=
  ∀ (s : State) (i : Instr), s.status = .running → s.pc.toNat ≤ 253 →
    decode [s.opcodeAt, s.operandA, s.operandB] = .ok i → step s = exec i s

/-- The model's interface (log entry 12): the step after `withFetchWord` runs the instruction of the word. -/
def Obligations.FetchWordRuns : Prop :=
  ∀ (s : State) (nbits w : Nat) (i : Instr), s.status = .running → s.pc.toNat ≤ 253 →
    decodeTableWord nbits w = some i → step (s.withFetchWord nbits w) = exec i (s.withFetchWord nbits w)

/-- R47, R15: in HALTED and FAULTED the state never changes again; that the step then answers the same state is the
model's choice (log entry 3). -/
def Obligations.StoppedStatesNeverChange : Prop :=
  ∀ s : State, s.status ≠ .running → ∀ k : Nat, Sys2Proof.core.run k s = .next s

/-- The step and every meaning are total. R5 and R59 say so of the step on RUNNING states. The rest is the model's: a
stopped state has a step, to itself, where R47 says that there is none (log entry 3), a fault is a next state (log
entry 4), and a meaning answers on ill-formed terms (log entries 7 and 8) and in stopped states (log entry 10). -/
def Obligations.StepAndExecAlwaysAnswerNext : Prop :=
  (∀ s : State, ∃ t : State, step s = .next t) ∧ ∀ (i : Instr) (s : State), ∃ t : State, exec i s = .next t

/-! ### The rule of each instruction

The program counter of a state that executes an instruction is at most 253, where the nine-bit additions below are the
exact sums. -/

/-- R60. -/
def Obligations.LdiRule : Prop :=
  (∀ a imm : Byte, encode (.ldi a imm) = [0x82, a, imm] ∧ decodeFetched 0x82 a imm = .ldi a imm) ∧
  ∀ s : State, s.status = .running →
    (∀ (r : Reg) (imm : Byte),
      exec (.ldi r.toByte imm) s = .next { s with x := s.x.set r imm, pc := s.pc + 3 }) ∧
    (∀ a imm : Byte, 7 < a.toNat →
      exec (.ldi a imm) s = .next { s with status := .faulted, fault := some .invalidRegister }) ∧
    (253 < s.pc.toNat → step s = .next { s with status := .faulted, fault := some .outOfBounds })

/-- R61. -/
def Obligations.PrnRule : Prop :=
  (∀ a b : Byte, encode (.prn a) = [0x47, a] ∧ decodeFetched 0x47 a b = .prn a) ∧
  ∀ s : State, s.status = .running →
    (∀ r : Reg, exec (.prn r.toByte) s = .next { s with out := s.out ++ [s.reg r], pc := s.pc + 2 }) ∧
    (∀ a : Byte, 7 < a.toNat →
      exec (.prn a) s = .next { s with status := .faulted, fault := some .invalidRegister }) ∧
    (253 < s.pc.toNat → step s = .next { s with status := .faulted, fault := some .outOfBounds })

/-- R62. -/
def Obligations.HltRule : Prop :=
  (∀ a b : Byte, encode .hlt = [0x01] ∧ decodeFetched 0x01 a b = .hlt) ∧
  ∀ s : State, s.status = .running →
    exec .hlt s = .next { s with status := .halted } ∧
    (253 < s.pc.toNat → step s = .next { s with status := .faulted, fault := some .outOfBounds })

/-- R66, with the sum as R64 gives it. -/
def Obligations.AddRule : Prop :=
  (∀ a b : Byte, encode (.add a b) = [0xA0, a, b] ∧ decodeFetched 0xA0 a b = .add a b) ∧
  ∀ s : State, s.status = .running →
    (∀ ra rb : Reg, exec (.add ra.toByte rb.toByte) s = .next
      { s with x := s.x.set ra (BitVec.ofNat 8 (((s.reg ra).toNat + (s.reg rb).toNat) % 256)), pc := s.pc + 3 }) ∧
    (∀ a b : Byte, 7 < a.toNat ∨ 7 < b.toNat →
      exec (.add a b) s = .next { s with status := .faulted, fault := some .invalidRegister }) ∧
    (253 < s.pc.toNat → step s = .next { s with status := .faulted, fault := some .outOfBounds })

/-- R67, with the product as R64 gives it. -/
def Obligations.MulRule : Prop :=
  (∀ a b : Byte, encode (.mul a b) = [0xA2, a, b] ∧ decodeFetched 0xA2 a b = .mul a b) ∧
  ∀ s : State, s.status = .running →
    (∀ ra rb : Reg, exec (.mul ra.toByte rb.toByte) s = .next
      { s with x := s.x.set ra (BitVec.ofNat 8 (((s.reg ra).toNat * (s.reg rb).toNat) % 256)), pc := s.pc + 3 }) ∧
    (∀ a b : Byte, 7 < a.toNat ∨ 7 < b.toNat →
      exec (.mul a b) s = .next { s with status := .faulted, fault := some .invalidRegister }) ∧
    (253 < s.pc.toNat → step s = .next { s with status := .faulted, fault := some .outOfBounds })

/-- R68. -/
def Obligations.CmpRule : Prop :=
  (∀ a b : Byte, encode (.cmp a b) = [0xA7, a, b] ∧ decodeFetched 0xA7 a b = .cmp a b) ∧
  ∀ s : State, s.status = .running →
    (∀ ra rb : Reg, exec (.cmp ra.toByte rb.toByte) s = .next
      { s with
        fl := if (s.reg ra).toNat < (s.reg rb).toNat then 0x04
          else if (s.reg ra).toNat > (s.reg rb).toNat then 0x02 else 0x01
        pc := s.pc + 3 }) ∧
    (∀ a b : Byte, 7 < a.toNat ∨ 7 < b.toNat →
      exec (.cmp a b) s = .next { s with status := .faulted, fault := some .invalidRegister }) ∧
    (253 < s.pc.toNat → step s = .next { s with status := .faulted, fault := some .outOfBounds })

/-- R71: the popped byte goes to the register and then the pointer is incremented, so that POP R7 ends with the popped
byte plus one. -/
def Obligations.PopRule : Prop :=
  (∀ a b : Byte, encode (.pop a) = [0x46, a] ∧ decodeFetched 0x46 a b = .pop a) ∧
  ∀ s : State, s.status = .running →
    (∀ r : Reg, r ≠ .r7 → exec (.pop r.toByte) s = .next
      { s with x := (s.x.set r (s.byteAt (s.reg .r7).toNat)).set .r7 (s.reg .r7 + 1), pc := s.pc + 2 }) ∧
    (exec (.pop 7) s = .next
      { s with x := s.x.set .r7 (s.byteAt (s.reg .r7).toNat + 1), pc := s.pc + 2 }) ∧
    (∀ a : Byte, 7 < a.toNat →
      exec (.pop a) s = .next { s with status := .faulted, fault := some .invalidRegister }) ∧
    (253 < s.pc.toNat → step s = .next { s with status := .faulted, fault := some .outOfBounds })

/-- R72: the pointer goes down by one, the register as it then reads is stored at the new pointer, and nothing else of
the memory changes. -/
def Obligations.PushRule : Prop :=
  (∀ a b : Byte, encode (.push a) = [0x45, a] ∧ decodeFetched 0x45 a b = .push a) ∧
  ∀ s : State, s.status = .running →
    (∀ r : Reg, ∃ t : State, exec (.push r.toByte) s = .next t ∧
      t = { s with x := s.x.set .r7 (s.reg .r7 - 1), pc := s.pc + 2, mem := t.mem } ∧
      t.byteAt (s.reg .r7 - 1).toNat = (if r = .r7 then s.reg .r7 - 1 else s.reg r) ∧
      ∀ addr : Nat, addr ≠ (s.reg .r7 - 1).toNat → t.byteAt addr = s.byteAt addr) ∧
    (∀ a : Byte, 7 < a.toNat →
      exec (.push a) s = .next { s with status := .faulted, fault := some .invalidRegister }) ∧
    (253 < s.pc.toNat → step s = .next { s with status := .faulted, fault := some .outOfBounds })

/-- R75: the return address `pc + 2` is pushed, and the target is the register as it reads after the push. -/
def Obligations.CallRule : Prop :=
  (∀ a b : Byte, encode (.call a) = [0x50, a] ∧ decodeFetched 0x50 a b = .call a) ∧
  ∀ s : State, s.status = .running →
    (s.pc.toNat ≤ 253 → ∀ r : Reg, ∃ t : State, exec (.call r.toByte) s = .next t ∧
      t = { s with x := s.x.set .r7 (s.reg .r7 - 1), pc := t.pc, mem := t.mem } ∧
      t.pc.toNat = (if r = .r7 then s.reg .r7 - 1 else s.reg r).toNat ∧
      (t.byteAt (s.reg .r7 - 1).toNat).toNat = s.pc.toNat + 2 ∧
      ∀ addr : Nat, addr ≠ (s.reg .r7 - 1).toNat → t.byteAt addr = s.byteAt addr) ∧
    (∀ a : Byte, 7 < a.toNat →
      exec (.call a) s = .next { s with status := .faulted, fault := some .invalidRegister }) ∧
    (253 < s.pc.toNat → step s = .next { s with status := .faulted, fault := some .outOfBounds })

/-- R76. -/
def Obligations.RetRule : Prop :=
  (∀ a b : Byte, encode .ret = [0x11] ∧ decodeFetched 0x11 a b = .ret) ∧
  ∀ s : State, s.status = .running →
    exec .ret s = .next
      { s with
        x := s.x.set .r7 (s.reg .r7 + 1)
        pc := BitVec.ofNat 9 (s.byteAt (s.reg .r7).toNat).toNat } ∧
    (253 < s.pc.toNat → step s = .next { s with status := .faulted, fault := some .outOfBounds })

/-- R77. -/
def Obligations.JmpRule : Prop :=
  (∀ a b : Byte, encode (.jmp a) = [0x54, a] ∧ decodeFetched 0x54 a b = .jmp a) ∧
  ∀ s : State, s.status = .running →
    (∀ r : Reg, exec (.jmp r.toByte) s = .next { s with pc := BitVec.ofNat 9 (s.reg r).toNat }) ∧
    (∀ a : Byte, 7 < a.toNat →
      exec (.jmp a) s = .next { s with status := .faulted, fault := some .invalidRegister }) ∧
    (253 < s.pc.toNat → step s = .next { s with status := .faulted, fault := some .outOfBounds })

/-- R78. -/
def Obligations.JeqRule : Prop :=
  (∀ a b : Byte, encode (.jeq a) = [0x55, a] ∧ decodeFetched 0x55 a b = .jeq a) ∧
  ∀ s : State, s.status = .running →
    (∀ r : Reg, exec (.jeq r.toByte) s = .next
      { s with pc := if s.fl = 0x01 then BitVec.ofNat 9 (s.reg r).toNat else s.pc + 2 }) ∧
    (∀ a : Byte, 7 < a.toNat →
      exec (.jeq a) s = .next { s with status := .faulted, fault := some .invalidRegister }) ∧
    (253 < s.pc.toNat → step s = .next { s with status := .faulted, fault := some .outOfBounds })

/-- R79. -/
def Obligations.JneRule : Prop :=
  (∀ a b : Byte, encode (.jne a) = [0x56, a] ∧ decodeFetched 0x56 a b = .jne a) ∧
  ∀ s : State, s.status = .running →
    (∀ r : Reg, exec (.jne r.toByte) s = .next
      { s with pc := if s.fl ≠ 0x01 then BitVec.ofNat 9 (s.reg r).toNat else s.pc + 2 }) ∧
    (∀ a : Byte, 7 < a.toNat →
      exec (.jne a) s = .next { s with status := .faulted, fault := some .invalidRegister }) ∧
    (253 < s.pc.toNat → step s = .next { s with status := .faulted, fault := some .outOfBounds })

/-- R53: an unknown opcode with bit 4 clear is a no-op of its decoded length, whatever the operand bytes. -/
def Obligations.SkippingUnknownRule : Prop :=
  ∀ ir : Byte, dispatch ir = none → ir.toNat / 16 % 2 = 0 →
    (∀ opa opb : Byte, decodeFetched ir opa opb = .unknownSkipping ir) ∧
    ∀ s : State, s.status = .running → s.pc.toNat ≤ 253 →
      ∃ t : State, exec (.unknownSkipping ir) s = .next t ∧ (s.opcodeAt = ir → step s = .next t) ∧
        t = { s with pc := t.pc } ∧ t.pc.toNat = s.pc.toNat + ir.toNat / 64 + 1

/-- R54: an unknown opcode with bit 4 set changes nothing, and the machine stays on it for ever. -/
def Obligations.StallingUnknownRule : Prop :=
  ∀ ir : Byte, dispatch ir = none → ir.toNat / 16 % 2 = 1 →
    (∀ s : State, exec (.unknownStalling ir) s = .next s) ∧
    ∀ s : State, s.status = .running → s.pc.toNat ≤ 253 → s.opcodeAt = ir →
      ∀ k : Nat, Sys2Proof.core.run k s = .next s

/-! ### Primitives -/

/-- R21, R22, R23: a read gives what was written last, a write leaves every other cell and all other state alone, and an
address above 255 faults both. -/
def Obligations.MemoryReadAndWrite : Prop :=
  ∀ (s : State) (addr : Nat) (v : Byte),
    (addr ≤ 255 →
      (∃ w : Byte, memRead addr s = .ok w) ∧
      ∃ t : State, memWrite addr v s = .ok t ∧ t = { s with mem := t.mem } ∧ memRead addr t = .ok v ∧
        ∀ other : Nat, other ≠ addr → memRead other t = memRead other s) ∧
    (255 < addr → memRead addr s = .error .outOfBounds ∧ memWrite addr v s = .error .outOfBounds)

/-- R69: push decrements modulo 256, stores at the new pointer, and never faults. -/
def Obligations.PushPrimitive : Prop :=
  ∀ (v : Byte) (s : State), ∃ t : State, push v s = .ok t ∧
    t = { s with x := s.x.set .r7 (BitVec.ofNat 8 ((s.reg .r7).toNat + 255)), mem := t.mem } ∧
    t.byteAt (t.reg .r7).toNat = v ∧
    ∀ addr : Nat, addr ≠ (t.reg .r7).toNat → t.byteAt addr = s.byteAt addr

/-- R70: pop reads at the pointer, increments modulo 256, leaves the memory alone, and never faults. -/
def Obligations.PopPrimitive : Prop :=
  ∀ s : State, pop s = .ok
    (s.byteAt (s.reg .r7).toNat, { s with x := s.x.set .r7 (BitVec.ofNat 8 ((s.reg .r7).toNat + 1)) })

/-- R63, R64: ADD and MUL keep the low eight bits of the exact result and touch the one register, CMP is the unsigned
three-way comparison and touches the flags alone. -/
def Obligations.AluArithmetic : Prop :=
  ∀ (s : State) (ra rb : Reg),
    (∃ t : State, alu .add ra rb s = .ok t ∧ t = { s with x := s.x.set ra (t.reg ra) } ∧
      (t.reg ra).toNat = ((s.reg ra).toNat + (s.reg rb).toNat) % 256) ∧
    (∃ t : State, alu .mul ra rb s = .ok t ∧ t = { s with x := s.x.set ra (t.reg ra) } ∧
      (t.reg ra).toNat = ((s.reg ra).toNat * (s.reg rb).toNat) % 256) ∧
    (∃ t : State, alu .cmp ra rb s = .ok t ∧ t = { s with fl := t.fl } ∧
      (t.fl = 0x04 ↔ (s.reg ra).toNat < (s.reg rb).toNat) ∧ (t.fl = 0x02 ↔ (s.reg rb).toNat < (s.reg ra).toNat) ∧
      (t.fl = 0x01 ↔ s.reg ra = s.reg rb))

/-- R65, R83 (that no program reaches it the spec marks as derived): the ALU refuses exactly the other ten entries, and
no step records cause 3. -/
def Obligations.AluUnsupportedIsUnreachable : Prop :=
  (∀ (op : Op) (ra rb : Reg) (s : State),
    alu op ra rb s = .error .unsupportedAluOperation ↔ op ≠ .add ∧ op ≠ .mul ∧ op ≠ .cmp) ∧
  Cause.unsupportedAluOperation.code = 3 ∧
  ∀ s t : State, step s = .next t → t.fault = some .unsupportedAluOperation →
    s.fault = some .unsupportedAluOperation

/-! ### Faults -/

/-- R81: OutOfBounds, code 1, exactly when a step begins with `pc` above 253. -/
def Obligations.OutOfBoundsExactlyAbove253 : Prop :=
  Cause.outOfBounds.code = 1 ∧
  ∀ s : State, s.status = .running →
    (253 < s.pc.toNat → step s = .next { s with status := .faulted, fault := some .outOfBounds }) ∧
    (s.pc.toNat ≤ 253 → ∀ t : State, step s = .next t → t.fault = some .outOfBounds → s.fault = some .outOfBounds)

/-- R51, R82: InvalidRegister, code 2, exactly when a defined opcode's format uses an operand byte above 7 as a register
index; the immediate, the ignored bytes and everything after an unknown opcode are not checked. -/
def Obligations.InvalidRegisterExactly : Prop :=
  Cause.invalidRegister.code = 2 ∧
  ∀ s : State, s.status = .running → s.pc.toNat ≤ 253 →
    (step s = .next { s with status := .faulted, fault := some .invalidRegister } ↔
      ∃ op : Op, dispatch s.opcodeAt = some op ∧
        (op.format = .R ∧ 7 < s.operandA.toNat ∨ op.format = .RI ∧ 7 < s.operandA.toNat ∨
          op.format = .RR ∧ (7 < s.operandA.toNat ∨ 7 < s.operandB.toNat)))

/-- R86: fault entry sets `status` and `fault`, to code 1, 2 or 3, and nothing else, and a step that ends FAULTED has
done nothing more; of the three causes only the first two occur. -/
def Obligations.FaultEntryIsPrecise : Prop :=
  (∀ (c : Cause) (s : State), raise c s = { s with status := .faulted, fault := some c }) ∧
  (∀ c : Cause, c.code = 1 ∨ c.code = 2 ∨ c.code = 3) ∧
  ∀ s t : State, s.status = .running → step s = .next t → t.status = .faulted →
    t = { s with status := .faulted, fault := some .outOfBounds } ∨
    t = { s with status := .faulted, fault := some .invalidRegister }

/-- R88: the fetch fault comes before the register check whatever the bytes are, and two bad operands are one
InvalidRegister. -/
def Obligations.FaultPriority : Prop :=
  ∀ s : State, s.status = .running →
    (253 < s.pc.toNat → step s = .next { s with status := .faulted, fault := some .outOfBounds }) ∧
    (s.pc.toNat ≤ 253 → s.opcodeAt = 0xA0 ∨ s.opcodeAt = 0xA2 ∨ s.opcodeAt = 0xA7 →
      7 < s.operandA.toNat → 7 < s.operandB.toNat →
      step s = .next { s with status := .faulted, fault := some .invalidRegister })

/-! ### Frames -/

/-- The forms that touch no memory and no stack pointer of their own: LDI, ADD, MUL, PRN, CMP, JMP, JEQ, JNE, HLT and
the unknown opcodes leave every byte of memory alone, every register but the named destination, the flags but for CMP,
and the output but for PRN; a well-formed one leaves `status` alone but for HLT, and `fault`. -/
def Obligations.FrameOfRegisterForms : Prop :=
  ∀ (s t : State) (i : Instr), exec i s = .next t →
    (∀ a imm : Byte, i = .ldi a imm →
      (∀ addr : Nat, t.byteAt addr = s.byteAt addr) ∧ (∀ q : Reg, q.toByte ≠ a → t.reg q = s.reg q) ∧
      t.fl = s.fl ∧ t.out = s.out ∧ (i.wellFormed = true → t.status = s.status ∧ t.fault = s.fault)) ∧
    (∀ a b : Byte, i = .add a b ∨ i = .mul a b →
      (∀ addr : Nat, t.byteAt addr = s.byteAt addr) ∧ (∀ q : Reg, q.toByte ≠ a → t.reg q = s.reg q) ∧
      t.fl = s.fl ∧ t.out = s.out ∧ (i.wellFormed = true → t.status = s.status ∧ t.fault = s.fault)) ∧
    (∀ a : Byte, i = .prn a →
      (∀ addr : Nat, t.byteAt addr = s.byteAt addr) ∧ (∀ q : Reg, t.reg q = s.reg q) ∧
      t.fl = s.fl ∧ (i.wellFormed = true → t.status = s.status ∧ t.fault = s.fault)) ∧
    (∀ a b : Byte, i = .cmp a b →
      (∀ addr : Nat, t.byteAt addr = s.byteAt addr) ∧ (∀ q : Reg, t.reg q = s.reg q) ∧
      t.out = s.out ∧ (i.wellFormed = true → t.status = s.status ∧ t.fault = s.fault)) ∧
    (∀ a : Byte, i = .jmp a ∨ i = .jeq a ∨ i = .jne a ∨ i = .unknownSkipping a ∨ i = .unknownStalling a →
      (∀ addr : Nat, t.byteAt addr = s.byteAt addr) ∧ (∀ q : Reg, t.reg q = s.reg q) ∧
      t.fl = s.fl ∧ t.out = s.out ∧ (i.wellFormed = true → t.status = s.status ∧ t.fault = s.fault)) ∧
    (i = .hlt →
      (∀ addr : Nat, t.byteAt addr = s.byteAt addr) ∧ (∀ q : Reg, t.reg q = s.reg q) ∧
      t.fl = s.fl ∧ t.out = s.out ∧ t.fault = s.fault ∧ t.pc = s.pc)

/-- The stack forms: PUSH and CALL leave alone every byte but the one at the decremented pointer and every register but
R7, POP and RET every byte and every register but the destination and R7; none touches flags or output, and a
well-formed one leaves `status` and `fault` alone. -/
def Obligations.FrameOfStackForms : Prop :=
  ∀ (s t : State) (i : Instr), exec i s = .next t →
    (∀ a : Byte, i = .push a ∨ i = .call a →
      (∀ addr : Nat, addr ≠ ((decSp s).reg .sp).toNat → t.byteAt addr = s.byteAt addr) ∧
      (∀ q : Reg, q ≠ .r7 → t.reg q = s.reg q) ∧
      t.fl = s.fl ∧ t.out = s.out ∧ (i.wellFormed = true → t.status = s.status ∧ t.fault = s.fault)) ∧
    (∀ a : Byte, i = .pop a →
      (∀ addr : Nat, t.byteAt addr = s.byteAt addr) ∧
      (∀ q : Reg, q.toByte ≠ a → q ≠ .r7 → t.reg q = s.reg q) ∧
      t.fl = s.fl ∧ t.out = s.out ∧ (i.wellFormed = true → t.status = s.status ∧ t.fault = s.fault)) ∧
    (i = .ret →
      (∀ addr : Nat, t.byteAt addr = s.byteAt addr) ∧ (∀ q : Reg, q ≠ .r7 → t.reg q = s.reg q) ∧
      t.fl = s.fl ∧ t.out = s.out ∧ t.status = s.status ∧ t.fault = s.fault)

/-! ### Rules of the whole machine -/

/-- R12: the new `pc` of every step. -/
def Obligations.NextPcTable : Prop :=
  ∀ s t : State, s.status = .running → step s = .next t →
    (t.status ≠ .running → t.pc = s.pc) ∧
    (t.status = .running →
      (s.opcodeAt ∈ [0x82, 0xA0, 0xA2, 0xA7] → t.pc.toNat = s.pc.toNat + 3) ∧
      (s.opcodeAt ∈ [0x47, 0x45, 0x46] → t.pc.toNat = s.pc.toNat + 2) ∧
      (s.opcodeAt ≠ 0x01) ∧
      (s.opcodeAt = 0x50 → ∃ r : Reg, r.toByte = s.operandA ∧ t.pc.toNat = (t.reg r).toNat) ∧
      (s.opcodeAt = 0x11 → t.pc.toNat = (s.byteAt (s.reg .r7).toNat).toNat) ∧
      (s.opcodeAt = 0x54 → ∃ r : Reg, r.toByte = s.operandA ∧ t.pc.toNat = (s.reg r).toNat) ∧
      (s.opcodeAt = 0x55 → ∃ r : Reg, r.toByte = s.operandA ∧
        t.pc.toNat = if s.fl = 0x01 then (s.reg r).toNat else s.pc.toNat + 2) ∧
      (s.opcodeAt = 0x56 → ∃ r : Reg, r.toByte = s.operandA ∧
        t.pc.toNat = if s.fl ≠ 0x01 then (s.reg r).toNat else s.pc.toNat + 2) ∧
      (dispatch s.opcodeAt = none → s.opcodeAt.toNat / 16 % 2 = 0 →
        t.pc.toNat = s.pc.toNat + s.opcodeAt.toNat / 64 + 1) ∧
      (dispatch s.opcodeAt = none → s.opcodeAt.toNat / 16 % 2 = 1 → t.pc = s.pc))

/-- R10, the column of registers written: a register changes only as the destination of LDI, ADD, MUL or POP, or as the
stack pointer of PUSH, POP, CALL or RET. -/
def Obligations.RegistersWrittenOnlyAsListed : Prop :=
  ∀ (s t : State) (q : Reg), step s = .next t → t.reg q ≠ s.reg q →
    s.status = .running ∧ s.pc.toNat ≤ 253 ∧
      (s.opcodeAt ∈ [0x82, 0xA0, 0xA2, 0x46] ∧ s.operandA = q.toByte ∨
        q = .r7 ∧ s.opcodeAt ∈ [0x45, 0x46, 0x50, 0x11])

/-- R24, the row of data writes: memory changes only by PUSH or CALL, at the pointer after the decrement. -/
def Obligations.MemoryWrittenOnlyByPushAndCall : Prop :=
  ∀ (s t : State) (addr : Nat), step s = .next t → t.byteAt addr ≠ s.byteAt addr →
    s.status = .running ∧ s.pc.toNat ≤ 253 ∧ (s.opcodeAt = 0x45 ∨ s.opcodeAt = 0x50) ∧
      addr = (s.reg .r7 - 1).toNat

/-- R14, writers: the flags byte changes only in a CMP. -/
def Obligations.FlagsWrittenOnlyByCmp : Prop :=
  ∀ s t : State, step s = .next t → t.fl ≠ s.fl →
    s.status = .running ∧ s.pc.toNat ≤ 253 ∧ s.opcodeAt = 0xA7

/-- R14, readers: with any other flags byte a step other than JEQ or JNE does the same, and keeps that byte unless it is
a CMP that wrote a new one. -/
def Obligations.FlagsReadOnlyByConditionalJumps : Prop :=
  ∀ (s t : State) (f : Byte), s.status = .running → s.pc.toNat ≤ 253 → s.opcodeAt ≠ 0x55 → s.opcodeAt ≠ 0x56 →
    step s = .next t →
    step { s with fl := f } = .next { t with fl := if s.opcodeAt = 0xA7 ∧ t.status = .running then t.fl else f }

/-- R14: no instruction tells two flags bytes apart that are both not EQUAL, LESS_THAN and GREATER_THAN among them.
In a stopped state the step is the model's (log entry 3). -/
def Obligations.LessAndGreaterAreAlike : Prop :=
  ∀ (s : State) (f g : Byte), f ≠ 0x01 → g ≠ 0x01 →
    ∃ t u : State, step { s with fl := f } = .next t ∧ step { s with fl := g } = .next u ∧
      u = { t with fl := u.fl } ∧ (u.fl = t.fl ∨ t.fl = f ∧ u.fl = g)

/-- R17: the output starts empty, a step appends to it only by PRN and only the one value, and no step depends on what
it already holds. -/
def Obligations.OutputOnlyGrowsByPrn : Prop :=
  State.reset.out = [] ∧
  ∀ s t : State, step s = .next t →
    (t.out = s.out ∨ s.status = .running ∧ s.pc.toNat ≤ 253 ∧ s.opcodeAt = 0x47 ∧
      ∃ r : Reg, r.toByte = s.operandA ∧ t.out = s.out ++ [s.reg r]) ∧
    ∀ earlier : List Byte, step { s with out := earlier ++ s.out } = .next { t with out := earlier ++ t.out }

/-- R15, R99: a running machine halts in exactly the steps that fetch HLT at 253 or below, with `pc` on it. -/
def Obligations.HaltsExactlyByHlt : Prop :=
  ∀ s t : State, s.status = .running → step s = .next t →
    (t.status = .halted ↔ s.pc.toNat ≤ 253 ∧ s.opcodeAt = 0x01) ∧ (t.status = .halted → t.pc = s.pc)

/-- The pairing property of R72: PUSH then POP on one register gives back every register, R7 included.
With `pc` above 253, where no step executes a PUSH, the meanings and the sum are the model's (log entries 5 and 10). -/
def Obligations.PushThenPopRestoresRegisters : Prop :=
  ∀ (s : State) (r : Reg), s.status = .running →
    ∃ t u : State, exec (.push r.toByte) s = .next t ∧ exec (.pop r.toByte) t = .next u ∧ u.x = s.x ∧
      u.pc = s.pc + 4

/-- R76: CALL then RET comes back to the call site plus two with every register as before. -/
def Obligations.CallThenRetReturns : Prop :=
  ∀ (s : State) (r : Reg), s.status = .running → s.pc.toNat ≤ 253 →
    ∃ t u : State, exec (.call r.toByte) s = .next t ∧ exec .ret t = .next u ∧ u.pc.toNat = s.pc.toNat + 2 ∧ u.x = s.x

/-- R34: a store is seen by the next fetch; CALL R7 jumps to the cell it has just written, and the next step runs the
return address as an opcode. -/
def Obligations.FetchSeesTheStore : Prop :=
  ∀ s t : State, s.status = .running → s.pc.toNat ≤ 253 → exec (.call 7) s = .next t → t.pc.toNat ≤ 253 →
    step t = exec (decodeFetched (BitVec.ofNat 8 (s.pc.toNat + 2)) t.operandA t.operandB) t

/-! ### Invariants and runs -/

/-- R13, R15, R19: at `State.reset` the flags, `pc`, `status` and `fault` are as the invariant asks. The canonical form of
the memory is of the model's representation (log entry 1), and that `State.reset` has the image of the empty program is
the model's choice (log entry 2). -/
def Obligations.ResetMeetsInvariant : Prop := State.reset.inv

/-- Every step keeps the invariant: the canonical memory (of the model's representation, log entry 1), the flags (R13),
the bound on `pc` (R56), and `fault` in step with `status` (R15). In a stopped state the step is the model's (log
entry 3). -/
def Obligations.StepKeepsInvariant : Prop :=
  ∀ s t : State, s.inv → step s = .next t → t.inv

/-- Over any run of any program the flags are 0x00, 0x01, 0x02 or 0x04 (R13), `pc` is at most 257 (R56), `fault` is
NONE unless FAULTED (R15), and the output of the run so far stays as it is (R17). The canonical form of the memory is
of the model's representation (log entry 1), and that a run goes on past a stop, with the same state, is the model's
reading of R47 (log entry 3). -/
def Obligations.RunsKeepInvariant : Prop :=
  ∀ (program : List Byte) (s : State), resetWith program = some s → ∀ k : Nat,
    ∃ t : State, Sys2Proof.core.run k s = .next t ∧ t.inv ∧
      ∀ j : Nat, ∃ u : State, Sys2Proof.core.run (k + j) s = .next u ∧ ∃ more : List Byte, u.out = t.out ++ more

/-- R42, R53, R81: a run that reaches zeroed memory, wherever `pc` enters it, walks up it one byte a step until the fetch
at 254 faults. -/
def Obligations.ZeroedMemoryWalksToFault : Prop :=
  ∀ s : State, s.status = .running → s.pc.toNat ≤ 254 →
    (∀ addr : Nat, s.pc.toNat ≤ addr → addr ≤ 255 → s.byteAt addr = 0x00) →
    Sys2Proof.core.run (254 - s.pc.toNat) s = .next { s with pc := 254 } ∧
    Sys2Proof.core.run (255 - s.pc.toNat) s =
      .next { s with pc := 254, status := .faulted, fault := some .outOfBounds }
end

