-- ==== Sys2Proof/Laws/Decode.lean ====
section
/-! SUPPORT. Small lemmas about the decoder's parts: the opcode byte, the dispatch lookup, the register-index check. -/

namespace Sys2Proof

theorem decodeLen_pos (ir : Byte) : 1 ≤ decodeLen ir := by unfold decodeLen; omega

theorem decodeLen_le (ir : Byte) : decodeLen ir ≤ 4 := by
  have := (ir.extractLsb' 6 2).isLt
  unfold decodeLen
  omega

/-- The lookup finds each entry under its own opcode. -/
@[simp] theorem dispatch_opcode (op : Op) : dispatch op.opcode = some op := by cases op <;> decide

/-- What the lookup finds has the looked-up byte as its opcode. -/
theorem opcode_of_dispatch {ir : Byte} {op : Op} (h : dispatch ir = some op) : op.opcode = ir := by
  have := List.find?_some h
  simpa using this

theorem Op.mem_all (op : Op) : op ∈ Op.all := by cases op <;> decide

/-- An opcode's length is one more than the operand bytes of its format. -/
theorem decodeLen_opcode (op : Op) : decodeLen op.opcode = op.format.operandCount + 1 := by cases op <;> decide

theorem isRegIndex_iff (b : Byte) : isRegIndex b = true ↔ b.toNat ≤ 7 := by simp [isRegIndex]

theorem decodeFetched_of_some {ir : Byte} {op : Op} (opa opb : Byte) (h : dispatch ir = some op) :
    decodeFetched ir opa opb = op.instr opa opb := by simp [decodeFetched, h]

theorem decodeFetched_of_none {ir : Byte} (opa opb : Byte) (h : dispatch ir = none) :
    decodeFetched ir opa opb = unknownInstr ir := by simp [decodeFetched, h]

@[simp] theorem decodeFetched_opcode (op : Op) (opa opb : Byte) :
    decodeFetched op.opcode opa opb = op.instr opa opb := decodeFetched_of_some opa opb (dispatch_opcode op)

theorem decode_of_none {ir : Byte} (rest : List Byte) (h : dispatch ir = none) :
    decode (ir :: rest) = .ok (unknownInstr ir) := by simp [decode, h]

theorem decode_of_some {ir : Byte} {op : Op} {rest : List Byte} {p : Byte × Byte} (h : dispatch ir = some op)
    (hp : op.format.operandBytes rest = some p) : decode (ir :: rest) = .ok (op.instr p.1 p.2) := by
  simp [decode, h, hp]

/-- On at least three bytes the list decoder is the machine's decoder. -/
theorem decode_fetched (ir opa opb : Byte) (rest : List Byte) :
    decode (ir :: opa :: opb :: rest) = .ok (decodeFetched ir opa opb) := by
  cases h : dispatch ir with
  | none => rw [decode_of_none _ h, decodeFetched_of_none _ _ h]
  | some op =>
    rw [decodeFetched_of_some _ _ h]
    cases op <;> simp [decode, h, Op.format, Format.operandBytes, Op.instr]

namespace Machine

/-- A register's operand byte names it. -/
@[simp] theorem Reg.ofByte_toByte (r : Reg) : Reg.ofByte r.toByte = some r := by cases r <;> rfl

/-- The byte that names a register is its operand byte. -/
theorem Reg.toByte_of_ofByte {b : Byte} {r : Reg} (h : Reg.ofByte b = some r) : r.toByte = b := by
  revert h; revert r b; decide

/-- A byte names no register exactly when it is above 7 (40_execution_loop.md R51). -/
theorem Reg.ofByte_eq_none {b : Byte} : Reg.ofByte b = none ↔ 7 < b.toNat := by
  revert b; decide

theorem Reg.ofByte_isSome (b : Byte) : (Reg.ofByte b).isSome = isRegIndex b := by
  revert b; decide

theorem Reg.toByte_le (r : Reg) : r.toByte.toNat ≤ 7 := by cases r <;> decide

/-- Every legal index is some register's operand byte. -/
theorem Reg.exists_toByte {b : Byte} (h : b.toNat ≤ 7) : ∃ r : Reg, r.toByte = b := by
  cases hr : Reg.ofByte b with
  | none => exact absurd (Reg.ofByte_eq_none.mp hr) (by omega)
  | some r => exact ⟨r, Reg.toByte_of_ofByte hr⟩

end Machine

end Sys2Proof
end

