-- ==== Sys2Proof/Laws/Memory.lean ====
section
/-! SUPPORT. The laws of the memory array: read after write, every operation keeps the canonical form, equal memories
are equal lists, and what the image holds. -/

namespace Sys2Proof.Machine

/-! ### Read after write -/

theorem Memory.read_erase_same (m : Memory) (addr : Nat) :
    Memory.read (Memory.erase m addr) addr = Config.unlistedByte := by
  induction m with
  | nil => rfl
  | cons c rest ih =>
    obtain ⟨a, v⟩ := c
    by_cases h : a = addr
    · simpa [Memory.erase, h] using ih
    · simpa [Memory.erase, h, Memory.read] using ih

theorem Memory.read_erase_other (m : Memory) {addr b : Nat} (h : b ≠ addr) :
    Memory.read (Memory.erase m addr) b = Memory.read m b := by
  induction m with
  | nil => rfl
  | cons c rest ih =>
    obtain ⟨a, v⟩ := c
    by_cases ha : a = addr
    · have hab : a ≠ b := fun e => h (e ▸ ha)
      have : Memory.read ((a, v) :: rest) b = Memory.read rest b := by simp [Memory.read, hab]
      rw [this, ← ih]
      simp [Memory.erase, ha]
    · have : Memory.erase ((a, v) :: rest) addr = (a, v) :: Memory.erase rest addr := by
        simp [Memory.erase, ha]
      rw [this]
      simp only [Memory.read, ih]

theorem Memory.read_insert_other (m : Memory) {addr b : Nat} (v : Byte) (h : b ≠ addr) :
    Memory.read (Memory.insert m addr v) b = Memory.read m b := by
  induction m with
  | nil => simp [Memory.insert, Memory.read, Ne.symm h]
  | cons c rest ih =>
    obtain ⟨a, w⟩ := c
    unfold Memory.insert
    split
    · simp [Memory.read, Ne.symm h]
    · simp only [Memory.read, ih]

theorem Memory.read_insert_same {m : Memory} {addr : Nat} (v : Byte) (h : ∀ c ∈ m, c.1 ≠ addr) :
    Memory.read (Memory.insert m addr v) addr = v := by
  induction m with
  | nil => simp [Memory.insert, Memory.read]
  | cons c rest ih =>
    obtain ⟨a, w⟩ := c
    have ha : a ≠ addr := h (a, w) (by simp)
    unfold Memory.insert
    split
    · simp [Memory.read]
    · simp only [Memory.read, if_neg ha]
      exact ih fun c hc => h c (by simp [hc])

theorem Memory.erase_ne (m : Memory) (addr : Nat) : ∀ c ∈ Memory.erase m addr, c.1 ≠ addr := by
  intro c hc
  simpa using (List.mem_filter.mp hc).2

/-- A read of the address just written gives the value written. -/
@[simp] theorem Memory.read_write_same (m : Memory) (addr : Nat) (v : Byte) :
    Memory.read (Memory.write m addr v) addr = v := by
  unfold Memory.write
  split
  · next h => rw [h, Memory.read_erase_same]
  · exact Memory.read_insert_same v (Memory.erase_ne m addr)

/-- A write leaves every other address alone. -/
theorem Memory.read_write_other (m : Memory) {addr b : Nat} (v : Byte) (h : b ≠ addr) :
    Memory.read (Memory.write m addr v) b = Memory.read m b := by
  unfold Memory.write
  split
  · exact Memory.read_erase_other m h
  · rw [Memory.read_insert_other _ v h, Memory.read_erase_other m h]

theorem Memory.read_write (m : Memory) (addr b : Nat) (v : Byte) :
    Memory.read (Memory.write m addr v) b = if b = addr then v else Memory.read m b := by
  split
  · next h => rw [h, Memory.read_write_same]
  · next h => exact Memory.read_write_other m v h

/-! ### The canonical form -/

theorem Memory.wfFrom_cons {lo a : Nat} {v : Byte} {rest : Memory} :
    Memory.wfFrom lo ((a, v) :: rest) = true ↔
      lo ≤ a ∧ a < Config.memSize ∧ v ≠ Config.unlistedByte ∧ Memory.wfFrom (a + 1) rest = true := by
  simp [Memory.wfFrom, and_assoc]

theorem Memory.wfFrom_mono {m : Memory} {lo lo' : Nat} (h : lo' ≤ lo) (hm : Memory.wfFrom lo m = true) :
    Memory.wfFrom lo' m = true := by
  cases m with
  | nil => rfl
  | cons c rest =>
    obtain ⟨a, v⟩ := c
    rw [Memory.wfFrom_cons] at hm ⊢
    exact ⟨h.trans hm.1, hm.2⟩

theorem Memory.wfFrom_erase {m : Memory} {lo : Nat} (addr : Nat) (h : Memory.wfFrom lo m = true) :
    Memory.wfFrom lo (Memory.erase m addr) = true := by
  induction m generalizing lo with
  | nil => rfl
  | cons c rest ih =>
    obtain ⟨a, v⟩ := c
    rw [Memory.wfFrom_cons] at h
    obtain ⟨hlo, ha, hv, hrest⟩ := h
    have hr := ih hrest
    by_cases hne : a = addr
    · have : Memory.erase ((a, v) :: rest) addr = Memory.erase rest addr := by simp [Memory.erase, hne]
      rw [this]
      exact Memory.wfFrom_mono (by omega) hr
    · have : Memory.erase ((a, v) :: rest) addr = (a, v) :: Memory.erase rest addr := by
        simp [Memory.erase, hne]
      rw [this, Memory.wfFrom_cons]
      exact ⟨hlo, ha, hv, hr⟩

theorem Memory.wfFrom_insert {m : Memory} {lo addr : Nat} {v : Byte} (hlo : lo ≤ addr) (ha : addr < Config.memSize)
    (hv : v ≠ Config.unlistedByte) (hne : ∀ c ∈ m, c.1 ≠ addr) (h : Memory.wfFrom lo m = true) :
    Memory.wfFrom lo (Memory.insert m addr v) = true := by
  induction m generalizing lo with
  | nil => simp [Memory.insert, Memory.wfFrom, hlo, ha, hv]
  | cons c rest ih =>
    obtain ⟨a, w⟩ := c
    have hane : a ≠ addr := hne (a, w) (by simp)
    rw [Memory.wfFrom_cons] at h
    obtain ⟨h1, h2, h3, h4⟩ := h
    unfold Memory.insert
    split
    · next hlt =>
      rw [Memory.wfFrom_cons, Memory.wfFrom_cons]
      exact ⟨hlo, ha, hv, by omega, h2, h3, h4⟩
    · next hge =>
      rw [Memory.wfFrom_cons]
      exact ⟨h1, h2, h3, ih (by omega) (fun c hc => hne c (by simp [hc])) h4⟩

/-- A store inside the memory keeps the canonical form. -/
theorem Memory.wf_write {m : Memory} {addr : Nat} (v : Byte) (ha : addr < Config.memSize)
    (h : Memory.wf m = true) : Memory.wf (Memory.write m addr v) = true := by
  unfold Memory.write
  split
  · exact Memory.wfFrom_erase addr h
  · next hv =>
    exact Memory.wfFrom_insert (Nat.zero_le _) ha hv (Memory.erase_ne m addr) (Memory.wfFrom_erase addr h)

theorem Memory.wfFrom_imageFrom (program : List Byte) (base : Nat)
    (h : base + program.length ≤ Config.memSize) : Memory.wfFrom base (imageFrom base program) = true := by
  induction program generalizing base with
  | nil => rfl
  | cons v rest ih =>
    have hl : base + 1 + rest.length ≤ Config.memSize := by simp only [List.length_cons] at h; omega
    unfold imageFrom
    split
    · exact Memory.wfFrom_mono (Nat.le_succ _) (ih (base + 1) hl)
    · next hv =>
      rw [Memory.wfFrom_cons]
      exact ⟨Nat.le_refl _, by omega, hv, ih (base + 1) hl⟩

/-- The image of a program that fits is in canonical form. -/
theorem Memory.wf_image {program : List Byte} (h : program.length ≤ Config.memSize) :
    Memory.wf (imageFrom 0 program) = true :=
  Memory.wfFrom_imageFrom program 0 (by omega)

/-- Below its lower bound a canonical memory lists nothing. -/
theorem Memory.read_below {m : Memory} {lo b : Nat} (hb : b < lo) (h : Memory.wfFrom lo m = true) :
    Memory.read m b = Config.unlistedByte := by
  induction m generalizing lo with
  | nil => rfl
  | cons c rest ih =>
    obtain ⟨a, v⟩ := c
    rw [Memory.wfFrom_cons] at h
    have hab : a ≠ b := by omega
    simp only [Memory.read, if_neg hab]
    exact ih (by omega : b < a + 1) h.2.2.2

theorem Memory.eq_of_read_eq_from {m n : Memory} {lo : Nat} (hm : Memory.wfFrom lo m = true)
    (hn : Memory.wfFrom lo n = true) (h : ∀ b, Memory.read m b = Memory.read n b) : m = n := by
  induction m generalizing lo n with
  | nil =>
    cases n with
    | nil => rfl
    | cons c rest =>
      obtain ⟨a, v⟩ := c
      rw [Memory.wfFrom_cons] at hn
      have := h a
      simp only [Memory.read, if_true] at this
      exact absurd this.symm hn.2.2.1
  | cons c rest ih =>
    obtain ⟨a, v⟩ := c
    have hm' := Memory.wfFrom_cons.mp hm
    cases n with
    | nil =>
      have := h a
      simp only [Memory.read, if_true] at this
      exact absurd this hm'.2.2.1
    | cons d rest' =>
      obtain ⟨b, w⟩ := d
      have hn' := Memory.wfFrom_cons.mp hn
      have hab : a = b := by
        rcases Nat.lt_trichotomy a b with hlt | heq | hgt
        · have h1 := h a
          rw [Memory.read_below (Nat.lt_of_lt_of_le hlt (Nat.le_refl b))
            (Memory.wfFrom_cons.mpr ⟨Nat.le_refl b, hn'.2⟩)] at h1
          simp only [Memory.read, if_true] at h1
          exact absurd h1 hm'.2.2.1
        · exact heq
        · have h1 := h b
          rw [Memory.read_below (m := (a, v) :: rest) hgt
            (Memory.wfFrom_cons.mpr ⟨Nat.le_refl a, hm'.2⟩)] at h1
          simp only [Memory.read, if_true] at h1
          exact absurd h1.symm hn'.2.2.1
      subst hab
      have hv : v = w := by simpa [Memory.read] using h a
      subst hv
      have hrest : rest = rest' := by
        refine ih hm'.2.2.2 hn'.2.2.2 fun b => ?_
        by_cases hb : b = a
        · subst hb
          rw [Memory.read_below (Nat.lt_succ_self b) hm'.2.2.2, Memory.read_below (Nat.lt_succ_self b) hn'.2.2.2]
        · have := h b
          simpa only [Memory.read, if_neg (Ne.symm hb)] using this
      rw [hrest]

/-- The memory after reset is in canonical form. -/
theorem Memory.wf_reset : Memory.wf State.reset.mem = true := rfl

/-! ### The image -/

/-- An image placed above an address leaves it unlisted. -/
theorem read_imageFrom_below (program : List Byte) {base b : Nat} (h : b < base) :
    Memory.read (imageFrom base program) b = Config.unlistedByte := by
  induction program generalizing base with
  | nil => rfl
  | cons w rest ih =>
    unfold imageFrom
    split
    · exact ih (by omega)
    · have hne : base ≠ b := by omega
      simp only [Memory.read, if_neg hne]
      exact ih (by omega)

theorem read_imageFrom (program : List Byte) (base k : Nat) :
    Memory.read (imageFrom base program) (base + k) = program.getD k Config.unlistedByte := by
  induction program generalizing base k with
  | nil => rfl
  | cons v rest ih =>
    unfold imageFrom
    cases k with
    | zero =>
      split
      · next hv =>
        rw [read_imageFrom_below rest (by omega), hv]
        rfl
      · simp [Memory.read]
    | succ k =>
      have hk : base + (k + 1) = base + 1 + k := by omega
      split
      · rw [hk, ih (base + 1) k]
        rfl
      · have hne : base ≠ base + (k + 1) := by omega
        simp only [Memory.read, if_neg hne]
        rw [hk, ih (base + 1) k]
        rfl

/-- What the image holds at an address: the program's byte, or zero above it (70_reset_and_hazards.md R94). -/
theorem read_image (program : List Byte) (k : Nat) :
    Memory.read (imageFrom 0 program) k = program.getD k Config.unlistedByte := by
  simpa using read_imageFrom program 0 k

end Sys2Proof.Machine
end

