-- ==== Sys2Proof/Laws/State.lean ====
section
/-! SUPPORT. One lemma for each field of State under each named update, and the register file's read-after-write laws. -/

namespace Sys2Proof.Machine

/-! ### The register file -/

@[simp] theorem Regs.get_set_same (x : Regs) (r : Reg) (v : Byte) : (x.set r v).get r = v := by
  cases r <;> rfl

theorem Regs.get_set_other (x : Regs) {r q : Reg} (v : Byte) (h : q ≠ r) : (x.set r v).get q = x.get q := by
  cases r <;> cases q <;> first | rfl | exact absurd rfl h

theorem Regs.get_set (x : Regs) (r q : Reg) (v : Byte) : (x.set r v).get q = if q = r then v else x.get q := by
  split
  · next h => rw [h, Regs.get_set_same]
  · next h => exact Regs.get_set_other x v h

@[simp] theorem Regs.set_set_same (x : Regs) (r : Reg) (v w : Byte) : (x.set r v).set r w = x.set r w := by
  cases r <;> rfl

@[simp] theorem Regs.set_get_same (x : Regs) (r : Reg) : x.set r (x.get r) = x := by
  cases r <;> rfl

/-- Two register files that agree on every register are the same. -/
theorem Regs.ext_get {x y : Regs} (h : ∀ r, x.get r = y.get r) : x = y := by
  have h0 := h .r0; have h1 := h .r1; have h2 := h .r2; have h3 := h .r3
  have h4 := h .r4; have h5 := h .r5; have h6 := h .r6; have h7 := h .r7
  cases x; cases y
  simp only [Regs.get] at h0 h1 h2 h3 h4 h5 h6 h7
  subst h0 h1 h2 h3 h4 h5 h6 h7
  rfl

/-! ### `setReg` -/

@[simp] theorem State.setReg_x (s : State) (r : Reg) (v : Byte) : (s.setReg r v).x = s.x.set r v := rfl
@[simp] theorem State.setReg_pc (s : State) (r : Reg) (v : Byte) : (s.setReg r v).pc = s.pc := rfl
@[simp] theorem State.setReg_fl (s : State) (r : Reg) (v : Byte) : (s.setReg r v).fl = s.fl := rfl
@[simp] theorem State.setReg_status (s : State) (r : Reg) (v : Byte) : (s.setReg r v).status = s.status := rfl
@[simp] theorem State.setReg_fault (s : State) (r : Reg) (v : Byte) : (s.setReg r v).fault = s.fault := rfl
@[simp] theorem State.setReg_mem (s : State) (r : Reg) (v : Byte) : (s.setReg r v).mem = s.mem := rfl
@[simp] theorem State.setReg_out (s : State) (r : Reg) (v : Byte) : (s.setReg r v).out = s.out := rfl
@[simp] theorem State.setReg_byteAt (s : State) (r : Reg) (v : Byte) (addr : Nat) :
    (s.setReg r v).byteAt addr = s.byteAt addr := rfl
@[simp] theorem State.setReg_reg_same (s : State) (r : Reg) (v : Byte) : (s.setReg r v).reg r = v :=
  Regs.get_set_same s.x r v

theorem State.setReg_reg_other (s : State) {r q : Reg} (v : Byte) (h : q ≠ r) : (s.setReg r v).reg q = s.reg q :=
  Regs.get_set_other s.x v h

theorem State.setReg_reg (s : State) (r q : Reg) (v : Byte) :
    (s.setReg r v).reg q = if q = r then v else s.reg q :=
  Regs.get_set s.x r q v

/-! ### `setPc` -/

@[simp] theorem State.setPc_x (s : State) (t : PcWord) : (s.setPc t).x = s.x := rfl
@[simp] theorem State.setPc_pc (s : State) (t : PcWord) : (s.setPc t).pc = t := rfl
@[simp] theorem State.setPc_fl (s : State) (t : PcWord) : (s.setPc t).fl = s.fl := rfl
@[simp] theorem State.setPc_status (s : State) (t : PcWord) : (s.setPc t).status = s.status := rfl
@[simp] theorem State.setPc_fault (s : State) (t : PcWord) : (s.setPc t).fault = s.fault := rfl
@[simp] theorem State.setPc_mem (s : State) (t : PcWord) : (s.setPc t).mem = s.mem := rfl
@[simp] theorem State.setPc_out (s : State) (t : PcWord) : (s.setPc t).out = s.out := rfl
@[simp] theorem State.setPc_reg (s : State) (t : PcWord) (r : Reg) : (s.setPc t).reg r = s.reg r := rfl
@[simp] theorem State.setPc_byteAt (s : State) (t : PcWord) (addr : Nat) : (s.setPc t).byteAt addr = s.byteAt addr :=
  rfl

/-! ### `raise` -/

@[simp] theorem raise_x (c : Cause) (s : State) : (raise c s).x = s.x := rfl
@[simp] theorem raise_pc (c : Cause) (s : State) : (raise c s).pc = s.pc := rfl
@[simp] theorem raise_fl (c : Cause) (s : State) : (raise c s).fl = s.fl := rfl
@[simp] theorem raise_status (c : Cause) (s : State) : (raise c s).status = .faulted := rfl
@[simp] theorem raise_fault (c : Cause) (s : State) : (raise c s).fault = some c := rfl
@[simp] theorem raise_mem (c : Cause) (s : State) : (raise c s).mem = s.mem := rfl
@[simp] theorem raise_out (c : Cause) (s : State) : (raise c s).out = s.out := rfl
@[simp] theorem raise_reg (c : Cause) (s : State) (r : Reg) : (raise c s).reg r = s.reg r := rfl
@[simp] theorem raise_byteAt (c : Cause) (s : State) (addr : Nat) : (raise c s).byteAt addr = s.byteAt addr := rfl

/-! ### `decSp` and `incSp` -/

@[simp] theorem decSp_x (s : State) : (decSp s).x = s.x.set .sp (s.reg .sp - 1) := rfl
@[simp] theorem decSp_pc (s : State) : (decSp s).pc = s.pc := rfl
@[simp] theorem decSp_fl (s : State) : (decSp s).fl = s.fl := rfl
@[simp] theorem decSp_status (s : State) : (decSp s).status = s.status := rfl
@[simp] theorem decSp_fault (s : State) : (decSp s).fault = s.fault := rfl
@[simp] theorem decSp_mem (s : State) : (decSp s).mem = s.mem := rfl
@[simp] theorem decSp_out (s : State) : (decSp s).out = s.out := rfl
@[simp] theorem decSp_sp (s : State) : (decSp s).reg .sp = s.reg .sp - 1 := State.setReg_reg_same s .sp _
theorem decSp_reg_other (s : State) {r : Reg} (h : r ≠ .sp) : (decSp s).reg r = s.reg r :=
  State.setReg_reg_other s _ h

@[simp] theorem incSp_x (s : State) : (incSp s).x = s.x.set .sp (s.reg .sp + 1) := rfl
@[simp] theorem incSp_pc (s : State) : (incSp s).pc = s.pc := rfl
@[simp] theorem incSp_fl (s : State) : (incSp s).fl = s.fl := rfl
@[simp] theorem incSp_status (s : State) : (incSp s).status = s.status := rfl
@[simp] theorem incSp_fault (s : State) : (incSp s).fault = s.fault := rfl
@[simp] theorem incSp_mem (s : State) : (incSp s).mem = s.mem := rfl
@[simp] theorem incSp_out (s : State) : (incSp s).out = s.out := rfl
@[simp] theorem incSp_sp (s : State) : (incSp s).reg .sp = s.reg .sp + 1 := State.setReg_reg_same s .sp _
theorem incSp_reg_other (s : State) {r : Reg} (h : r ≠ .sp) : (incSp s).reg r = s.reg r :=
  State.setReg_reg_other s _ h

/-! ### `pcUpdate` -/

/-- The update touches `pc` alone: everything it can do. -/
theorem pcUpdate_eq (ir : Byte) (s : State) : ∃ t, pcUpdate ir s = s.setPc t ∧
    t = if s.status = .running ∧ setsPc ir = false then s.pc + BitVec.ofNat 9 (decodeLen ir) else s.pc := by
  unfold pcUpdate
  split
  · exact ⟨_, rfl, rfl⟩
  · exact ⟨_, rfl, rfl⟩

@[simp] theorem pcUpdate_x (ir : Byte) (s : State) : (pcUpdate ir s).x = s.x := by
  obtain ⟨t, h, -⟩ := pcUpdate_eq ir s; rw [h, State.setPc_x]
@[simp] theorem pcUpdate_fl (ir : Byte) (s : State) : (pcUpdate ir s).fl = s.fl := by
  obtain ⟨t, h, -⟩ := pcUpdate_eq ir s; rw [h, State.setPc_fl]
@[simp] theorem pcUpdate_status (ir : Byte) (s : State) : (pcUpdate ir s).status = s.status := by
  obtain ⟨t, h, -⟩ := pcUpdate_eq ir s; rw [h, State.setPc_status]
@[simp] theorem pcUpdate_fault (ir : Byte) (s : State) : (pcUpdate ir s).fault = s.fault := by
  obtain ⟨t, h, -⟩ := pcUpdate_eq ir s; rw [h, State.setPc_fault]
@[simp] theorem pcUpdate_mem (ir : Byte) (s : State) : (pcUpdate ir s).mem = s.mem := by
  obtain ⟨t, h, -⟩ := pcUpdate_eq ir s; rw [h, State.setPc_mem]
@[simp] theorem pcUpdate_out (ir : Byte) (s : State) : (pcUpdate ir s).out = s.out := by
  obtain ⟨t, h, -⟩ := pcUpdate_eq ir s; rw [h, State.setPc_out]
@[simp] theorem pcUpdate_reg (ir : Byte) (s : State) (r : Reg) : (pcUpdate ir s).reg r = s.reg r := by
  obtain ⟨t, h, -⟩ := pcUpdate_eq ir s; rw [h, State.setPc_reg]
@[simp] theorem pcUpdate_byteAt (ir : Byte) (s : State) (addr : Nat) : (pcUpdate ir s).byteAt addr = s.byteAt addr := by
  obtain ⟨t, h, -⟩ := pcUpdate_eq ir s; rw [h, State.setPc_byteAt]

/-- Bit 4 set: `pc` stays where the handler left it (40_execution_loop.md R52). -/
theorem pcUpdate_setsPc {ir : Byte} (s : State) (h : setsPc ir = true) : pcUpdate ir s = s := by
  simp [pcUpdate, h]

/-- RUNNING and bit 4 clear: the length is added (40_execution_loop.md R52). -/
theorem pcUpdate_advance {ir : Byte} {s : State} (hr : s.status = .running) (h : setsPc ir = false) :
    pcUpdate ir s = s.setPc (s.pc + BitVec.ofNat 9 (decodeLen ir)) := by
  simp [pcUpdate, h, hr]

/-- No longer RUNNING: no advance (40_execution_loop.md R52). -/
theorem pcUpdate_stopped {ir : Byte} {s : State} (hr : s.status ≠ .running) : pcUpdate ir s = s := by
  simp [pcUpdate, hr]

end Sys2Proof.Machine
end

