-- ==== Sys2Proof/Laws/Ops.lean ====
section
/-! SUPPORT. One lemma for each shared operation that says once everything it can do, for later proofs to cite. -/

namespace Sys2Proof.Machine

/-! ### Memory access -/

theorem memRead_ok {addr : Nat} (s : State) (h : addr < 256) : memRead addr s = .ok (s.byteAt addr) := by
  simp [memRead, State.byteAt, Config.memSize, h]

theorem memRead_error {addr : Nat} (s : State) (h : 256 ≤ addr) : memRead addr s = .error .outOfBounds := by
  simp [memRead, Config.memSize, Nat.not_lt.mpr h]

theorem memWrite_ok {addr : Nat} (v : Byte) (s : State) (h : addr < 256) :
    memWrite addr v s = .ok { s with mem := Memory.write s.mem addr v } := by
  simp [memWrite, Config.memSize, h]

theorem memWrite_error {addr : Nat} (v : Byte) (s : State) (h : 256 ≤ addr) :
    memWrite addr v s = .error .outOfBounds := by
  simp [memWrite, Config.memSize, Nat.not_lt.mpr h]

/-- A store keeps the canonical form of the memory. -/
theorem memWrite_wf {addr : Nat} {v : Byte} {s t : State} (hw : Memory.wf s.mem = true)
    (h : memWrite addr v s = .ok t) : Memory.wf t.mem = true := by
  unfold memWrite at h
  split at h
  · next ha =>
    injection h with h
    subst h
    exact Memory.wf_write v ha hw
  · cases h

/-- Placing bytes keeps the canonical form of the memory. -/
theorem placeBytes_wf (bytes : List Byte) (addr : Nat) {s : State} (hw : Memory.wf s.mem = true) :
    Memory.wf (placeBytes addr bytes s).mem = true := by
  induction bytes generalizing addr s with
  | nil => exact hw
  | cons v rest ih =>
    refine ih (addr + 1) ?_
    split
    · next ha => exact Memory.wf_write v ha hw
    · exact hw

/-! ### The stack: data addresses are bytes, so no data access faults -/

@[simp] theorem loadTop_eq (s : State) : loadTop s = .ok (s.byteAt (s.reg .sp).toNat) :=
  memRead_ok s (s.reg .sp).isLt

@[simp] theorem storeTop_eq (v : Byte) (s : State) :
    storeTop v s = .ok { s with mem := Memory.write s.mem (s.reg .sp).toNat v } :=
  memWrite_ok v s (s.reg .sp).isLt

theorem push_eq (v : Byte) (s : State) :
    push v s = .ok { decSp s with mem := Memory.write s.mem (s.reg .sp - 1).toNat v } := by
  rw [push, storeTop_eq, decSp_sp, decSp_mem]

theorem pop_eq (s : State) : pop s = .ok (s.byteAt (s.reg .sp).toNat, incSp s) := by
  rw [pop, loadTop_eq, Except.map]

/-! ### Operands -/

@[simp] theorem withReg_toByte (r : Reg) (k : Reg → Except Cause State) : withReg r.toByte k = k r := by
  simp [withReg]

theorem withReg_of_some {a : Byte} {r : Reg} (k : Reg → Except Cause State) (h : Reg.ofByte a = some r) :
    withReg a k = k r := by
  simp [withReg, h]

theorem withReg_invalid {a : Byte} (k : Reg → Except Cause State) (h : 7 < a.toNat) :
    withReg a k = .error .invalidRegister := by
  simp [withReg, Reg.ofByte_eq_none.mpr h]

/-- Everything a register operand can do: the handler runs on the register it names, or InvalidRegister. -/
theorem withReg_cases (a : Byte) (k : Reg → Except Cause State) :
    (∃ r : Reg, Reg.ofByte a = some r ∧ withReg a k = k r) ∨
      (7 < a.toNat ∧ withReg a k = .error .invalidRegister) := by
  cases h : Reg.ofByte a with
  | some r => exact .inl ⟨r, rfl, withReg_of_some k h⟩
  | none => exact .inr ⟨Reg.ofByte_eq_none.mp h, withReg_invalid k (Reg.ofByte_eq_none.mp h)⟩

@[simp] theorem withRegs_toByte (ra rb : Reg) (k : Reg → Reg → Except Cause State) :
    withRegs ra.toByte rb.toByte k = k ra rb := by
  simp [withRegs]

theorem withRegs_invalid {a b : Byte} (k : Reg → Reg → Except Cause State) (h : 7 < a.toNat ∨ 7 < b.toNat) :
    withRegs a b k = .error .invalidRegister := by
  unfold withRegs
  rcases withReg_cases a (fun ra => withReg b fun rb => k ra rb) with ⟨r, hr, he⟩ | ⟨-, he⟩
  · have ha : ¬ 7 < a.toNat := fun hlt => by rw [Reg.ofByte_eq_none.mpr hlt] at hr; cases hr
    rw [he, withReg_invalid _ (h.resolve_left ha)]
  · exact he

/-- Everything two register operands can do. -/
theorem withRegs_cases (a b : Byte) (k : Reg → Reg → Except Cause State) :
    (∃ ra rb : Reg, Reg.ofByte a = some ra ∧ Reg.ofByte b = some rb ∧ withRegs a b k = k ra rb) ∨
      ((7 < a.toNat ∨ 7 < b.toNat) ∧ withRegs a b k = .error .invalidRegister) := by
  cases ha : Reg.ofByte a with
  | none =>
    have h := Reg.ofByte_eq_none.mp ha
    exact .inr ⟨.inl h, withRegs_invalid k (.inl h)⟩
  | some ra =>
    cases hb : Reg.ofByte b with
    | none =>
      have h := Reg.ofByte_eq_none.mp hb
      exact .inr ⟨.inr h, withRegs_invalid k (.inr h)⟩
    | some rb =>
      refine .inl ⟨ra, rb, rfl, rfl, ?_⟩
      unfold withRegs
      rw [withReg_of_some _ ha, withReg_of_some _ hb]

/-! ### The end of a step -/

theorem complete_ok (ir : Byte) (s t : State) : complete ir s (.ok t) = .next (pcUpdate ir t) := rfl

theorem complete_error (ir : Byte) (s : State) (c : Cause) : complete ir s (.error c) = .next (raise c s) := rfl

/-- Everything the end of a step can do: it always answers a next state, the handler's after the program-counter
update or fault entry on the state before the step. -/
theorem complete_cases {ir : Byte} {s t : State} {handled : Except Cause State}
    (h : complete ir s handled = .next t) :
    (∃ u, handled = .ok u ∧ t = pcUpdate ir u) ∨ (∃ c, handled = .error c ∧ t = raise c s) := by
  cases handled with
  | ok u => exact .inl ⟨u, rfl, by injection h with h; exact h.symm⟩
  | error c => exact .inr ⟨c, rfl, by injection h with h; exact h.symm⟩

/-! ### Fetch -/

theorem fetch_ok {s : State} (h : s.pc.toNat ≤ 253) :
    fetch s = .ok (s.byteAt s.pc.toNat, s.byteAt (s.pc.toNat + 1), s.byteAt (s.pc.toNat + 2)) := by
  rw [fetch, memRead_ok s (by omega), memRead_ok s (by omega), memRead_ok s (by omega)]
  rfl

/-- The three reads fault exactly when `pc` is above 253 (40_execution_loop.md R48). -/
theorem fetch_error {s : State} (h : 253 < s.pc.toNat) : fetch s = .error .outOfBounds := by
  unfold fetch
  by_cases h0 : s.pc.toNat < 256
  · rw [memRead_ok s h0]
    by_cases h1 : s.pc.toNat + 1 < 256
    · rw [memRead_ok s h1, memRead_error s (by omega : 256 ≤ s.pc.toNat + 2)]
      rfl
    · rw [memRead_error s (by omega : 256 ≤ s.pc.toNat + 1)]
      rfl
  · rw [memRead_error s (by omega : 256 ≤ s.pc.toNat)]
    rfl

end Sys2Proof.Machine
end

