-- ==== Sys2Proof/Laws/Exec.lean ====
section
/-! SUPPORT. One inversion lemma for each meaning and one for the step: if it answers a next state, then one of these
cases holds. The program-counter update stays folded as `pcUpdate`, whose own lemmas are in Laws/State.lean. -/

namespace Sys2Proof.Machine

/-- The end of an instruction with one register operand. -/
theorem complete_withReg_cases {ir a : Byte} {s t : State} {effect : Reg → State}
    (h : complete ir s (withReg a fun r => .ok (effect r)) = .next t) :
    (∃ r : Reg, Reg.ofByte a = some r ∧ t = pcUpdate ir (effect r)) ∨
      (7 < a.toNat ∧ t = raise .invalidRegister s) := by
  rcases withReg_cases a (fun r => .ok (effect r)) with ⟨r, hr, he⟩ | ⟨ha, he⟩
  · rw [he] at h
    exact .inl ⟨r, hr, by injection h with h; exact h.symm⟩
  · rw [he] at h
    exact .inr ⟨ha, by injection h with h; exact h.symm⟩

/-- The end of an instruction with two register operands. -/
theorem complete_withRegs_cases {ir a b : Byte} {s t : State} {effect : Reg → Reg → State}
    (h : complete ir s (withRegs a b fun ra rb => .ok (effect ra rb)) = .next t) :
    (∃ ra rb : Reg, Reg.ofByte a = some ra ∧ Reg.ofByte b = some rb ∧ t = pcUpdate ir (effect ra rb)) ∨
      ((7 < a.toNat ∨ 7 < b.toNat) ∧ t = raise .invalidRegister s) := by
  rcases withRegs_cases a b (fun ra rb => .ok (effect ra rb)) with ⟨ra, rb, ha, hb, he⟩ | ⟨hab, he⟩
  · rw [he] at h
    exact .inl ⟨ra, rb, ha, hb, by injection h with h; exact h.symm⟩
  · rw [he] at h
    exact .inr ⟨hab, by injection h with h; exact h.symm⟩

theorem execLdi_cases {a imm : Byte} {s t : State} (h : execLdi a imm s = .next t) :
    (∃ r : Reg, Reg.ofByte a = some r ∧ t = pcUpdate Op.ldi.opcode (s.setReg r imm)) ∨
      (7 < a.toNat ∧ t = raise .invalidRegister s) :=
  complete_withReg_cases h

theorem execPrn_cases {a : Byte} {s t : State} (h : execPrn a s = .next t) :
    (∃ r : Reg, Reg.ofByte a = some r ∧ t = pcUpdate Op.prn.opcode { s with out := s.out ++ [s.reg r] }) ∨
      (7 < a.toNat ∧ t = raise .invalidRegister s) :=
  complete_withReg_cases h

theorem execHlt_cases {s t : State} (h : execHlt s = .next t) : t = { s with status := .halted } := by
  rw [execHlt, complete_ok, pcUpdate_stopped (fun e => by cases e)] at h
  injection h with h
  exact h.symm

theorem execAdd_cases {a b : Byte} {s t : State} (h : execAdd a b s = .next t) :
    (∃ ra rb : Reg, Reg.ofByte a = some ra ∧ Reg.ofByte b = some rb ∧
      t = pcUpdate Op.add.opcode (s.setReg ra (s.reg ra + s.reg rb))) ∨
      ((7 < a.toNat ∨ 7 < b.toNat) ∧ t = raise .invalidRegister s) :=
  complete_withRegs_cases h

theorem execMul_cases {a b : Byte} {s t : State} (h : execMul a b s = .next t) :
    (∃ ra rb : Reg, Reg.ofByte a = some ra ∧ Reg.ofByte b = some rb ∧
      t = pcUpdate Op.mul.opcode (s.setReg ra (s.reg ra * s.reg rb))) ∨
      ((7 < a.toNat ∨ 7 < b.toNat) ∧ t = raise .invalidRegister s) :=
  complete_withRegs_cases h

theorem execCmp_cases {a b : Byte} {s t : State} (h : execCmp a b s = .next t) :
    (∃ ra rb : Reg, Reg.ofByte a = some ra ∧ Reg.ofByte b = some rb ∧
      t = pcUpdate Op.cmp.opcode { s with fl := compareFlags (s.reg ra) (s.reg rb) }) ∨
      ((7 < a.toNat ∨ 7 < b.toNat) ∧ t = raise .invalidRegister s) :=
  complete_withRegs_cases h

theorem execPop_cases {a : Byte} {s t : State} (h : execPop a s = .next t) :
    (∃ r : Reg, Reg.ofByte a = some r ∧
      t = pcUpdate Op.pop.opcode (incSp (s.setReg r (s.byteAt (s.reg .sp).toNat)))) ∨
      (7 < a.toNat ∧ t = raise .invalidRegister s) := by
  simp only [execPop, loadTop_eq, Except.map] at h
  exact complete_withReg_cases h

theorem execPush_cases {a : Byte} {s t : State} (h : execPush a s = .next t) :
    (∃ r : Reg, Reg.ofByte a = some r ∧
      t = pcUpdate Op.push.opcode
        { decSp s with mem := Memory.write s.mem ((decSp s).reg .sp).toNat ((decSp s).reg r) }) ∨
      (7 < a.toNat ∧ t = raise .invalidRegister s) := by
  simp only [execPush, storeTop_eq] at h
  exact complete_withReg_cases h

theorem execCall_cases {a : Byte} {s t : State} (h : execCall a s = .next t) :
    (∃ r : Reg, Reg.ofByte a = some r ∧
      t = jumpTo r { decSp s with mem := Memory.write s.mem ((decSp s).reg .sp).toNat (returnAddress s) }) ∨
      (7 < a.toNat ∧ t = raise .invalidRegister s) := by
  simp only [execCall, push, storeTop_eq, Except.map] at h
  rcases complete_withReg_cases h with ⟨r, hr, ht⟩ | h
  · exact .inl ⟨r, hr, by rw [ht, pcUpdate_setsPc _ (by decide)]; rfl⟩
  · exact .inr h

theorem execRet_cases {s t : State} (h : execRet s = .next t) :
    t = (incSp s).setPc (zext9 (s.byteAt (s.reg .sp).toNat)) := by
  simp only [execRet, pop_eq, Except.map, complete_ok] at h
  rw [pcUpdate_setsPc _ (by decide)] at h
  injection h with h
  exact h.symm

theorem execJmp_cases {a : Byte} {s t : State} (h : execJmp a s = .next t) :
    (∃ r : Reg, Reg.ofByte a = some r ∧ t = jumpTo r s) ∨ (7 < a.toNat ∧ t = raise .invalidRegister s) := by
  rcases complete_withReg_cases h with ⟨r, hr, ht⟩ | h
  · exact .inl ⟨r, hr, by rw [ht, pcUpdate_setsPc _ (by decide)]⟩
  · exact .inr h

theorem execJeq_cases {a : Byte} {s t : State} (h : execJeq a s = .next t) :
    (∃ r : Reg, Reg.ofByte a = some r ∧ t = if isEqual s.fl then jumpTo r s else fallThrough s) ∨
      (7 < a.toNat ∧ t = raise .invalidRegister s) := by
  rcases complete_withReg_cases h with ⟨r, hr, ht⟩ | h
  · exact .inl ⟨r, hr, by rw [ht, pcUpdate_setsPc _ (by decide)]⟩
  · exact .inr h

theorem execJne_cases {a : Byte} {s t : State} (h : execJne a s = .next t) :
    (∃ r : Reg, Reg.ofByte a = some r ∧ t = if isEqual s.fl then fallThrough s else jumpTo r s) ∨
      (7 < a.toNat ∧ t = raise .invalidRegister s) := by
  rcases complete_withReg_cases h with ⟨r, hr, ht⟩ | h
  · exact .inl ⟨r, hr, by rw [ht, pcUpdate_setsPc _ (by decide)]⟩
  · exact .inr h

theorem execUnknownStalling_cases {ir : Byte} {s t : State} (h : execUnknownStalling ir s = .next t) :
    t = pcUpdate ir s := by
  injection h with h
  exact h.symm

theorem execUnknownSkipping_cases {ir : Byte} {s t : State} (h : execUnknownSkipping ir s = .next t) :
    t = pcUpdate ir s := by
  injection h with h
  exact h.symm

/-- Everything a step can do: nothing, a fetch fault, or the instruction it fetched (40_execution_loop.md R59). -/
theorem step_cases {s t : State} (h : step s = .next t) :
    (s.status ≠ .running ∧ t = s) ∨
      (s.status = .running ∧ 253 < s.pc.toNat ∧ t = raise .outOfBounds s) ∨
      (s.status = .running ∧ s.pc.toNat ≤ 253 ∧
        exec (decodeFetched (s.byteAt s.pc.toNat) (s.byteAt (s.pc.toNat + 1)) (s.byteAt (s.pc.toNat + 2))) s =
          .next t) := by
  unfold step at h
  split at h
  · next hr =>
    by_cases hp : s.pc.toNat ≤ 253
    · rw [fetch_ok hp] at h
      exact .inr (.inr ⟨hr, hp, h⟩)
    · rw [fetch_error (Nat.not_le.mp hp)] at h
      exact .inr (.inl ⟨hr, Nat.not_le.mp hp, by injection h with h; exact h.symm⟩)
  · next hr => exact .inl ⟨by simp [hr], by injection h with h; exact h.symm⟩
  · next hr => exact .inl ⟨by simp [hr], by injection h with h; exact h.symm⟩

end Sys2Proof.Machine
end

