-- ==== Sys2Proof/Laws/PerInstr.lean ====
section
/-! SUPPORT. The families of statements made for each instruction as syntax (LAWS.json). -/

/-- The encoding of a well-formed instruction is an opcode byte and the operand bytes its opcode's bits 7:6 count, or,
outside the table, the opcode byte alone (30_encoding.md R36, R38, R41). -/
def Sys2Proof.Laws.EncodingShape.Statement (i : Sys2Proof.Instr) : Prop :=
  i.wellFormed = true → ∃ (ir : Sys2Proof.Byte) (operands : List Sys2Proof.Byte),
    Sys2Proof.encode i = ir :: operands ∧
      ((∃ op : Sys2Proof.Op, Sys2Proof.dispatch ir = some op ∧ operands.length = op.format.operandCount ∧
          Sys2Proof.decodeLen ir = operands.length + 1) ∨
        (Sys2Proof.dispatch ir = none ∧ operands = []))

open Sys2Proof

theorem Sys2Proof.Laws.EncodingShape.ldi (a imm : Byte) : Sys2Proof.Laws.EncodingShape.Statement (.ldi a imm) :=
  fun _ => ⟨_, _, rfl, .inl ⟨.ldi, dispatch_opcode _, rfl, decodeLen_opcode _⟩⟩

theorem Sys2Proof.Laws.EncodingShape.prn (a : Byte) : Sys2Proof.Laws.EncodingShape.Statement (.prn a) :=
  fun _ => ⟨_, _, rfl, .inl ⟨.prn, dispatch_opcode _, rfl, decodeLen_opcode _⟩⟩

theorem Sys2Proof.Laws.EncodingShape.hlt : Sys2Proof.Laws.EncodingShape.Statement .hlt :=
  fun _ => ⟨_, _, rfl, .inl ⟨.hlt, dispatch_opcode _, rfl, decodeLen_opcode _⟩⟩

theorem Sys2Proof.Laws.EncodingShape.add (a b : Byte) : Sys2Proof.Laws.EncodingShape.Statement (.add a b) :=
  fun _ => ⟨_, _, rfl, .inl ⟨.add, dispatch_opcode _, rfl, decodeLen_opcode _⟩⟩

theorem Sys2Proof.Laws.EncodingShape.mul (a b : Byte) : Sys2Proof.Laws.EncodingShape.Statement (.mul a b) :=
  fun _ => ⟨_, _, rfl, .inl ⟨.mul, dispatch_opcode _, rfl, decodeLen_opcode _⟩⟩

theorem Sys2Proof.Laws.EncodingShape.pop (a : Byte) : Sys2Proof.Laws.EncodingShape.Statement (.pop a) :=
  fun _ => ⟨_, _, rfl, .inl ⟨.pop, dispatch_opcode _, rfl, decodeLen_opcode _⟩⟩

theorem Sys2Proof.Laws.EncodingShape.push (a : Byte) : Sys2Proof.Laws.EncodingShape.Statement (.push a) :=
  fun _ => ⟨_, _, rfl, .inl ⟨.push, dispatch_opcode _, rfl, decodeLen_opcode _⟩⟩

theorem Sys2Proof.Laws.EncodingShape.call (a : Byte) : Sys2Proof.Laws.EncodingShape.Statement (.call a) :=
  fun _ => ⟨_, _, rfl, .inl ⟨.call, dispatch_opcode _, rfl, decodeLen_opcode _⟩⟩

theorem Sys2Proof.Laws.EncodingShape.ret : Sys2Proof.Laws.EncodingShape.Statement .ret :=
  fun _ => ⟨_, _, rfl, .inl ⟨.ret, dispatch_opcode _, rfl, decodeLen_opcode _⟩⟩

theorem Sys2Proof.Laws.EncodingShape.cmp (a b : Byte) : Sys2Proof.Laws.EncodingShape.Statement (.cmp a b) :=
  fun _ => ⟨_, _, rfl, .inl ⟨.cmp, dispatch_opcode _, rfl, decodeLen_opcode _⟩⟩

theorem Sys2Proof.Laws.EncodingShape.jmp (a : Byte) : Sys2Proof.Laws.EncodingShape.Statement (.jmp a) :=
  fun _ => ⟨_, _, rfl, .inl ⟨.jmp, dispatch_opcode _, rfl, decodeLen_opcode _⟩⟩

theorem Sys2Proof.Laws.EncodingShape.jeq (a : Byte) : Sys2Proof.Laws.EncodingShape.Statement (.jeq a) :=
  fun _ => ⟨_, _, rfl, .inl ⟨.jeq, dispatch_opcode _, rfl, decodeLen_opcode _⟩⟩

theorem Sys2Proof.Laws.EncodingShape.jne (a : Byte) : Sys2Proof.Laws.EncodingShape.Statement (.jne a) :=
  fun _ => ⟨_, _, rfl, .inl ⟨.jne, dispatch_opcode _, rfl, decodeLen_opcode _⟩⟩

theorem Sys2Proof.Laws.EncodingShape.unknownStalling (ir : Byte) :
    Sys2Proof.Laws.EncodingShape.Statement (.unknownStalling ir) := by
  intro h
  simp only [Instr.wellFormed, Bool.and_eq_true, Option.isNone_iff_eq_none] at h
  exact ⟨ir, [], rfl, .inr ⟨h.1, rfl⟩⟩

theorem Sys2Proof.Laws.EncodingShape.unknownSkipping (ir : Byte) :
    Sys2Proof.Laws.EncodingShape.Statement (.unknownSkipping ir) := by
  intro h
  simp only [Instr.wellFormed, Bool.and_eq_true, Option.isNone_iff_eq_none] at h
  exact ⟨ir, [], rfl, .inr ⟨h.1, rfl⟩⟩
end

