-- ==== Sys2Proof/Tests/Slice0.lean ====
section
/-! SUPPORT. Tests of the model's parts, each about one step at most, with results taken from spec/95_test_vectors.md
(the table and row are named), and a witness for the hypotheses of each statement. -/

namespace Sys2Proof.Machine

/-! ### Well-formedness: an ill-formed term for each check -/

theorem test_wf_refuses_ldi_register : (Instr.ldi 8 1).wellFormed = false := by decide
theorem test_wf_refuses_prn_register : (Instr.prn 9).wellFormed = false := by decide
theorem test_wf_refuses_first_add_register : (Instr.add 8 0).wellFormed = false := by decide
theorem test_wf_refuses_second_add_register : (Instr.add 0 8).wellFormed = false := by decide
theorem test_wf_refuses_mul_register : (Instr.mul 0 255).wellFormed = false := by decide
theorem test_wf_refuses_cmp_register : (Instr.cmp 0 9).wellFormed = false := by decide
theorem test_wf_refuses_stack_registers :
    (Instr.pop 8).wellFormed = false ∧ (Instr.push 8).wellFormed = false := by decide
theorem test_wf_refuses_jump_registers :
    (Instr.call 8).wellFormed = false ∧ (Instr.jmp 8).wellFormed = false ∧ (Instr.jeq 9).wellFormed = false ∧
      (Instr.jne 9).wellFormed = false := by decide
theorem test_wf_refuses_defined_opcode_as_unknown :
    (Instr.unknownSkipping 0x82).wellFormed = false ∧ (Instr.unknownStalling 0x50).wellFormed = false := by decide
theorem test_wf_refuses_wrong_class :
    (Instr.unknownSkipping 0x10).wellFormed = false ∧ (Instr.unknownStalling 0x00).wellFormed = false := by decide
theorem test_wf_accepts_any_immediate : (Instr.ldi 7 0xFF).wellFormed = true := by decide

/-! ### Decoding: words written out from 30_encoding.md R40, R42, R45, one or more of every constructor -/

theorem test_decode_ldi : decode [0b10000010, 0b00000111, 0b11110000] = .ok (.ldi 0x07 0xF0) := by rfl
theorem test_decode_prn : decode [0b01000111, 0b00000010] = .ok (.prn 0x02) := by rfl
theorem test_decode_hlt : decode [0b00000001] = .ok .hlt := by rfl
theorem test_decode_add : decode [0b10100000, 0b00000000, 0b00000001] = .ok (.add 0x00 0x01) := by rfl
theorem test_decode_mul : decode [0b10100010, 0b00000011, 0b00000100] = .ok (.mul 0x03 0x04) := by rfl
theorem test_decode_pop : decode [0b01000110, 0b00000011] = .ok (.pop 0x03) := by rfl
theorem test_decode_push : decode [0b01000101, 0b00000111] = .ok (.push 0x07) := by rfl
theorem test_decode_call : decode [0b01010000, 0b00000001] = .ok (.call 0x01) := by rfl
theorem test_decode_ret : decode [0b00010001] = .ok .ret := by rfl
theorem test_decode_cmp : decode [0b10100111, 0b00000000, 0b00000010] = .ok (.cmp 0x00 0x02) := by rfl
theorem test_decode_jmp : decode [0b01010100, 0b00000011] = .ok (.jmp 0x03) := by rfl
theorem test_decode_jeq : decode [0b01010101, 0b00000010] = .ok (.jeq 0x02) := by rfl
theorem test_decode_jne : decode [0b01010110, 0b00000011] = .ok (.jne 0x03) := by rfl
theorem test_decode_stalling : decode [0b00010000] = .ok (.unknownStalling 0x10) := by rfl
theorem test_decode_skipping : decode [0b11000011] = .ok (.unknownSkipping 0xC3) := by rfl
theorem test_decode_refuses_nothing : decode [] = .error .noOpcode := by rfl
theorem test_decode_refuses_short_add : decode [0b10100000, 0b00000000] = .error (.missingOperands .add) := by rfl
theorem test_decode_table_word : decodeTableWord 24 0xC80082 = some (.ldi 0x00 0xC8) := by rfl
theorem test_decode_table_word_cuts_above : decodeTableWord 8 0xFF01 = some .hlt := by rfl

/-! ### Memory -/

theorem test_write_keeps_cells_sorted :
    Memory.write (Memory.write [] 0xFF 0xAA) 0x10 0x05 = [(0x10, 0x05), (0xFF, 0xAA)] := by decide
theorem test_write_of_zero_lists_nothing : Memory.write [(0x10, 0x05), (0xFF, 0xAA)] 0x10 0x00 = [(0xFF, 0xAA)] := by
  decide

/-! ### Steps -/

/-- The reset state with `pc` at an address and bytes placed there, as the vectors start. -/
def vectorStart (pc : PcWord) (bytes : List Byte) : State := placeBytes pc.toNat bytes { State.reset with pc := pc }

/-- The state one step leads to. -/
def afterStep (s : State) : Option State :=
  match step s with
  | .next t => some t
  | .fault _ => none
  | .refused _ => none

/-- B2 row 6. -/
theorem test_ldi_at_last_address :
    (afterStep (vectorStart 0xFD [0x82, 0x01, 0x77])).map (fun t => (t.x.r1, t.pc, t.status)) =
      some (0x77, 256, .running) := by decide
/-- B2 row 5. -/
theorem test_ldi_register_8 :
    afterStep (vectorStart 0x00 [0x82, 0x08, 0x01]) =
      some { vectorStart 0x00 [0x82, 0x08, 0x01] with status := .faulted, fault := some .invalidRegister } := by decide
/-- B2 row 10. -/
theorem test_prn_r7 :
    (afterStep { vectorStart 0x00 [0x47, 0x07] with x := State.reset.x.set .r7 0xF0 }).map
      (fun t => (t.out, t.pc)) = some ([240], 2) := by decide
/-- B2 row 12. -/
theorem test_prn_register_9 :
    (afterStep (vectorStart 0x00 [0x47, 0x09])).map (fun t => (t.out, t.pc, t.fault)) =
      some ([], 0, some .invalidRegister) := by decide
/-- B2 row 15. -/
theorem test_hlt_at_253 :
    (afterStep (vectorStart 0xFD [0x01])).map (fun t => (t.status, t.pc)) = some (.halted, 0xFD) := by decide
/-- B2 row 16. -/
theorem test_hlt_at_254_faults :
    (afterStep (vectorStart 0xFE [0x01])).map (fun t => (t.status, t.fault, t.pc)) =
      some (.faulted, some .outOfBounds, 0xFE) := by decide
/-- B3 row 2. -/
theorem test_add_wraps :
    (afterStep { vectorStart 0x00 [0xA0, 0x00, 0x01] with x := { State.reset.x with r0 := 200, r1 := 100 } }).map
      (fun t => (t.x.r0, t.x.r1, t.pc, t.fl)) = some (44, 100, 3, 0) := by decide
/-- B3 row 9. -/
theorem test_add_second_register_8 :
    (afterStep { vectorStart 0x00 [0xA0, 0x00, 0x08] with x := { State.reset.x with r0 := 1 } }).map
      (fun t => (t.x.r0, t.pc, t.fault)) = some (1, 0, some .invalidRegister) := by decide
/-- B3 row 17. -/
theorem test_mul_wraps :
    (afterStep { vectorStart 0x00 [0xA2, 0x00, 0x01] with x := { State.reset.x with r0 := 200, r1 := 3 } }).map
      (fun t => (t.x.r0, t.pc)) = some (88, 3) := by decide
/-- B3 row 19. -/
theorem test_mul_squares :
    (afterStep { vectorStart 0x00 [0xA2, 0x03, 0x03] with x := { State.reset.x with r3 := 0x11 } }).map
      (fun t => t.x.r3) = some 0x21 := by decide
/-- B3 row 27. -/
theorem test_cmp_is_unsigned :
    (afterStep { vectorStart 0x00 [0xA7, 0x00, 0x01] with x := { State.reset.x with r0 := 0x80, r1 := 0x7F } }).map
      (fun t => (t.fl, t.pc)) = some (0x02, 3) := by decide
/-- B3 row 29. -/
theorem test_cmp_overwrites_flags :
    (afterStep { vectorStart 0x00 [0xA7, 0x04, 0x04] with x := { State.reset.x with r4 := 9 }, fl := 0x04 }).map
      (fun t => t.fl) = some 0x01 := by decide
/-- B4 row 7. -/
theorem test_pop_r3 :
    (afterStep (placeBytes 0xEF [0x2A]
      { vectorStart 0x10 [0x46, 0x03] with x := { State.reset.x with r7 := 0xEF } })).map
      (fun t => (t.x.r3, t.x.r7, t.pc, t.byteAt 0xEF)) = some (0x2A, 0xF0, 0x12, 0x2A) := by decide
/-- B4 row 10. -/
theorem test_pop_r7_increments_popped_byte :
    (afterStep (placeBytes 0x40 [0xFF]
      { vectorStart 0x10 [0x46, 0x07] with x := { State.reset.x with r7 := 0x40 } })).map
      (fun t => t.x.r7) = some 0x00 := by decide
/-- B4 row 2. -/
theorem test_push_wraps_pointer :
    (afterStep { vectorStart 0x10 [0x45, 0x00] with x := { State.reset.x with r0 := 0xAA } }).map
      (fun t => (t.x.r7, t.byteAt 0xFF, t.pc)) = some (0xFF, 0xAA, 0x12) := by decide
/-- B4 row 4. -/
theorem test_push_r7_stores_decremented_pointer :
    (afterStep { vectorStart 0x10 [0x45, 0x07] with x := { State.reset.x with r7 := 0x80 } }).map
      (fun t => (t.x.r7, t.byteAt 0x7F)) = some (0x7F, 0x7F) := by decide
/-- B5 row 4. -/
theorem test_call_largest_return_address :
    (afterStep { vectorStart 0xFD [0x50, 0x02] with x := { State.reset.x with r2 := 0x10, r7 := 0x80 } }).map
      (fun t => (t.pc, t.x.r7, t.byteAt 0x7F)) = some (0x10, 0x7F, 0xFF) := by decide
/-- B5 row 3. -/
theorem test_call_r7_jumps_to_new_pointer :
    (afterStep { vectorStart 0x03 [0x50, 0x07] with x := { State.reset.x with r7 := 0x21 } }).map
      (fun t => (t.pc, t.x.r7, t.byteAt 0x20)) = some (0x20, 0x20, 0x05) := by decide
/-- B5 row 8. -/
theorem test_ret_at_top_of_memory :
    (afterStep (placeBytes 0xFF [0x30] { vectorStart 0x11 [0x11] with x := { State.reset.x with r7 := 0xFF } })).map
      (fun t => (t.pc, t.x.r7)) = some (0x30, 0x00) := by decide
/-- B5 row 10. -/
theorem test_ret_ignores_following_bytes :
    (afterStep (placeBytes 0x80 [0x05]
      { vectorStart 0x11 [0x11, 0xFF, 0xFF] with x := { State.reset.x with r7 := 0x80 } })).map
      (fun t => (t.pc, t.x.r7)) = some (0x05, 0x81) := by decide
/-- B5 row 13. -/
theorem test_jmp_to_255 :
    (afterStep { vectorStart 0x18 [0x54, 0x00] with x := { State.reset.x with r0 := 0xFF } }).map
      (fun t => (t.pc, t.status)) = some (0xFF, .running) := by decide
/-- B5 row 16. -/
theorem test_jeq_taken :
    (afterStep { vectorStart 0x10 [0x55, 0x02] with x := { State.reset.x with r2 := 0x30 }, fl := 0x01 }).map
      (fun t => (t.pc, t.fl)) = some (0x30, 0x01) := by decide
/-- B5 row 23. -/
theorem test_jeq_register_9_not_taken_faults :
    (afterStep { vectorStart 0x10 [0x55, 0x09] with fl := 0x04 }).map (fun t => (t.pc, t.fault)) =
      some (0x10, some .invalidRegister) := by decide
/-- B5 row 19. -/
theorem test_jne_before_any_cmp :
    (afterStep { vectorStart 0x10 [0x56, 0x02] with x := { State.reset.x with r2 := 0x30 } }).map
      (fun t => t.pc) = some 0x30 := by decide
/-- B5 row 20. -/
theorem test_jne_not_taken :
    (afterStep { vectorStart 0x10 [0x56, 0x02] with x := { State.reset.x with r2 := 0x30 }, fl := 0x01 }).map
      (fun t => t.pc) = some 0x12 := by decide
/-- B6, 0xC0 at 0xFD. -/
theorem test_skip_length_4_at_253 :
    (afterStep (vectorStart 0xFD [0xC0, 0xFF, 0xFF])).map (fun t => (t.pc, t.status)) = some (257, .running) := by
  decide
/-- B6, 0xA1. -/
theorem test_skip_length_3 :
    (afterStep (vectorStart 0x20 [0xA1, 0xFF, 0xFF])).map (fun t => t.pc) = some 0x23 := by decide
/-- B6, 0xF0. -/
theorem test_stall : afterStep (vectorStart 0x20 [0xF0, 0xFF, 0xFF]) = some (vectorStart 0x20 [0xF0, 0xFF, 0xFF]) := by
  decide
/-- B7 row 6: the fetch fault comes before the register check. -/
theorem test_fetch_fault_first :
    (afterStep (vectorStart 0xFE [0xA0, 0x09])).map (fun t => t.fault) = some (some .outOfBounds) := by decide
/-- B7 row 8. -/
theorem test_halted_never_changes :
    afterStep { State.reset with status := .halted } = some { State.reset with status := .halted } := by decide
/-- B8, the image of the six-byte program. -/
theorem test_image : (resetWith [0x82, 0x00, 0x08, 0x47, 0x00, 0x01]).map (fun s => s.mem) =
    some [(0, 0x82), (2, 0x08), (3, 0x47), (5, 0x01)] := by decide
/-- The first step after reset runs the word placed with `withFetchWord`. -/
theorem test_with_fetch_word :
    (afterStep (State.reset.withFetchWord 24 0xF00782)).map (fun t => (t.x.r7, t.pc)) = some (0xF0, 3) := by decide

/-! ### Witnesses: the hypotheses of the statements are met together -/

theorem witness_ResetLeavesEveryComponent :
    ([0x82, 0x00, 0x08] : List Byte).length ≤ 256 ∧ (List.replicate 256 (0x01 : Byte)).length ≤ 256 :=
  ⟨by decide, List.length_replicate.le⟩
theorem witness_ResetIsTheEmptyImage : 256 < (List.replicate 257 (0x01 : Byte)).length := by
  rw [List.length_replicate]; omega
theorem witness_UnknownOpcodeClasses : dispatch 0x00 = none ∧ dispatch 0x10 = none := by decide
theorem witness_DecodeOfEncode :
    (Instr.ldi 7 0xFF).wellFormed = true ∧ (Instr.unknownSkipping 0xC0).wellFormed = true ∧
      (Instr.unknownStalling 0xFF).wellFormed = true := by decide
theorem witness_EncodeOfDecode : decode [0xA0, 0xFF, 0x01, 0x02] = .ok (.add 0xFF 0x01) := by rfl
theorem witness_StepRunsDecodedInstruction :
    let s := vectorStart 0xFD [0x82, 0x01, 0x77]
    s.status = .running ∧ s.pc.toNat ≤ 253 ∧
      (decode [s.opcodeAt, s.operandA, s.operandB]).toOption = some (.ldi 0x01 0x77) := by decide
theorem witness_FetchWordRuns :
    State.reset.status = .running ∧ State.reset.pc.toNat ≤ 253 ∧ decodeTableWord 8 0x11 = some .ret := by decide
theorem witness_StoppedStatesNeverChange :
    { State.reset with status := .halted }.status ≠ .running ∧ (raise .outOfBounds State.reset).status ≠ .running := by
  decide
/-- The rules of the instructions, their fetch fault and their register fault, and the fault statements: a running
state, one whose `pc` is above 253, and bytes just above 7. -/
theorem witness_instruction_rules :
    State.reset.status = .running ∧ { State.reset with pc := 253 }.pc.toNat ≤ 253 ∧
      253 < { State.reset with pc := 254 }.pc.toNat ∧ 7 < (8 : Byte).toNat ∧ 7 < (255 : Byte).toNat := by decide
theorem witness_SkippingUnknownRule :
    dispatch 0xC0 = none ∧ (0xC0 : Byte).toNat / 16 % 2 = 0 ∧ (vectorStart 0xFD [0xC0]).status = .running ∧
      (vectorStart 0xFD [0xC0]).pc.toNat ≤ 253 ∧ (vectorStart 0xFD [0xC0]).opcodeAt = 0xC0 := by decide
theorem witness_StallingUnknownRule :
    dispatch 0xFF = none ∧ (0xFF : Byte).toNat / 16 % 2 = 1 ∧ (vectorStart 0xFD [0xFF]).status = .running ∧
      (vectorStart 0xFD [0xFF]).pc.toNat ≤ 253 ∧ (vectorStart 0xFD [0xFF]).opcodeAt = 0xFF := by decide
theorem witness_MemoryReadAndWrite : (0 : Nat) ≤ 255 ∧ (255 : Nat) ≤ 255 ∧ 255 < (256 : Nat) ∧ (254 : Nat) ≠ 255 := by
  decide
theorem witness_AluUnsupportedIsUnreachable :
    afterStep { State.reset with status := .faulted, fault := some .unsupportedAluOperation } =
      some { State.reset with status := .faulted, fault := some .unsupportedAluOperation } := by decide
theorem witness_OutOfBoundsExactlyAbove253 :
    (vectorStart 0xFD [0x01]).status = .running ∧ (vectorStart 0xFD [0x01]).pc.toNat ≤ 253 ∧
      (afterStep { vectorStart 0xFD [0x01] with fault := some .outOfBounds }).map (fun t => t.fault) =
        some (some .outOfBounds) := by decide
theorem witness_InvalidRegisterExactly :
    let s := vectorStart 0xFD [0xA0, 0x00, 0x08]
    s.status = .running ∧ s.pc.toNat ≤ 253 ∧ dispatch s.opcodeAt = some .add ∧ Op.add.format = .RR ∧
      7 < s.operandB.toNat := by decide
theorem witness_FaultEntryIsPrecise :
    (vectorStart 0x00 [0x47, 0x08]).status = .running ∧
      (afterStep (vectorStart 0x00 [0x47, 0x08])).map (fun t => t.status) = some .faulted := by decide
theorem witness_FaultPriority :
    let s := vectorStart 0x00 [0xA0, 0x09, 0x0A]
    s.status = .running ∧ s.pc.toNat ≤ 253 ∧ s.opcodeAt = 0xA0 ∧ 7 < s.operandA.toNat ∧ 7 < s.operandB.toNat := by
  decide
/-- For both frame statements and each of their clauses: the instruction answers a next state. -/
theorem witness_frames :
    let answers (i : Instr) : Bool := match exec i State.reset with
      | .next _ => true
      | .fault _ => false
      | .refused _ => false
    ([.ldi 0 1, .add 0 1, .mul 7 7, .prn 0, .cmp 0 1, .jmp 0, .jeq 0, .jne 0, .unknownSkipping 0,
      .unknownStalling 0x10, .hlt, .push 7, .call 0, .pop 7, .ret, .ldi 8 1].all answers) = true := by decide
/-- A running state whose step answers a next state, for the whole-machine statements whose other hypotheses are the
opcode (the test vectors above) and the change (below). -/
theorem witness_NextPcTable :
    (vectorStart 0xFD [0x56, 0x07]).status = .running ∧
      (afterStep (vectorStart 0xFD [0x56, 0x07])).map (fun t => t.status) = some .running ∧
      (vectorStart 0xFD [0x56, 0x07]).opcodeAt = 0x56 := by decide
theorem witness_RegistersWrittenOnlyAsListed :
    (afterStep (vectorStart 0x00 [0x82, 0x01, 0x77])).map (fun t => decide (t.reg .r1 ≠ State.reset.reg .r1)) =
      some true := by decide
theorem witness_MemoryWrittenOnlyByPushAndCall :
    (afterStep (vectorStart 0x00 [0x50, 0x00])).map
      (fun t => decide (t.byteAt 0xFF ≠ (vectorStart 0x00 [0x50, 0x00]).byteAt 0xFF)) = some true := by decide
theorem witness_FlagsWrittenOnlyByCmp :
    (afterStep (vectorStart 0x00 [0xA7, 0x00, 0x01])).map (fun t => decide (t.fl ≠ State.reset.fl)) = some true := by
  decide
theorem witness_FlagsReadOnlyByConditionalJumps :
    let s := vectorStart 0x00 [0xA7, 0x00, 0x01]
    s.status = .running ∧ s.pc.toNat ≤ 253 ∧ s.opcodeAt ≠ 0x55 ∧ s.opcodeAt ≠ 0x56 ∧
      (afterStep s).map (fun t => t.fl) = some 0x01 := by decide
theorem witness_LessAndGreaterAreAlike : (0x04 : Byte) ≠ 0x01 ∧ (0x02 : Byte) ≠ 0x01 := by decide
theorem witness_OutputOnlyGrowsByPrn :
    (afterStep (vectorStart 0x00 [0x47, 0x00])).map (fun t => t.out) = some [0x00] := by decide
theorem witness_HaltsExactlyByHlt :
    (vectorStart 0xFD [0x01]).status = .running ∧
      (afterStep (vectorStart 0xFD [0x01])).map (fun t => t.status) = some .halted := by decide
theorem witness_PushThenPop_and_CallThenRet :
    State.reset.status = .running ∧ { State.reset with pc := 253 }.pc.toNat ≤ 253 := by decide
theorem witness_FetchSeesTheStore :
    let s := { vectorStart 0x03 [0x50, 0x07] with x := { State.reset.x with r7 := 0x21 } }
    s.status = .running ∧ s.pc.toNat ≤ 253 ∧ ∃ t, exec (.call 7) s = .next t ∧ t.pc.toNat ≤ 253 :=
  ⟨rfl, by decide, _, rfl, by decide⟩
theorem witness_StepKeepsInvariant :
    State.reset.inv ∧ (afterStep State.reset).map (fun t => t.pc) = some 1 := by decide
theorem witness_RunsKeepInvariant : (resetWith [0x82, 0x07, 0xF0]).isSome = true := by decide
theorem witness_ZeroedMemoryWalksToFault :
    State.reset.status = .running ∧ State.reset.pc.toNat ≤ 254 ∧
      ∀ addr : Nat, State.reset.pc.toNat ≤ addr → addr ≤ 255 → State.reset.byteAt addr = 0x00 :=
  ⟨rfl, by decide, fun _ _ _ => rfl⟩
/-- The same at the top of the range of `pc`, with a program below: no step of walking is left and the next one faults
(60_exceptions.md R81). -/
theorem witness_ZeroedMemoryWalksToFault_at_254 :
    let s := { vectorStart 0x00 [0x82, 0x00, 0x08] with pc := 254 }
    s.status = .running ∧ s.pc.toNat ≤ 254 ∧
      (∀ addr : Nat, s.pc.toNat ≤ addr → addr ≤ 255 → s.byteAt addr = 0x00) ∧
      (afterStep s).map (fun t => (t.pc, t.fault)) = some (254, some .outOfBounds) := by
  refine ⟨rfl, by decide, fun addr low high => ?_, by decide⟩
  have at_top : addr = 254 ∨ addr = 255 := by
    change 254 ≤ addr at low
    omega
  rcases at_top with rfl | rfl <;> rfl
/-- The same one step below, with a program ending just under `pc`: one step of walking is left (30_encoding.md R42). -/
theorem witness_ZeroedMemoryWalksToFault_at_253 :
    let s := { vectorStart 0xFB [0x11, 0x11] with pc := 253 }
    s.status = .running ∧ s.pc.toNat ≤ 254 ∧
      (∀ addr : Nat, s.pc.toNat ≤ addr → addr ≤ 255 → s.byteAt addr = 0x00) ∧
      (afterStep s).map (fun t => (t.pc, t.fault)) = some (254, none) := by
  refine ⟨rfl, by decide, fun addr low high => ?_, by decide⟩
  have near_top : addr = 253 ∨ addr = 254 ∨ addr = 255 := by
    change 253 ≤ addr at low
    omega
  rcases near_top with rfl | rfl | rfl <;> rfl

end Sys2Proof.Machine
end

section
/-! PROOF. The step and every meaning are total (00_scope.md R5, 40_execution_loop.md R59). The forward equations of the
step, one for each of its branches, stand beside `step_cases`, which reads a step backward. -/

namespace Sys2Proof.Machine

/-! ### The forward equations of the step -/

theorem step_of_stopped {s : State} (h : s.status ≠ .running) : step s = .next s := by
  unfold step
  split
  · next hr => exact absurd hr h
  · rfl
  · rfl

theorem step_of_pc_gt {s : State} (hr : s.status = .running) (hp : 253 < s.pc.toNat) :
    step s = .next (raise .outOfBounds s) := by
  simp only [step, hr, fetch_error hp]

theorem step_of_pc_le {s : State} (hr : s.status = .running) (hp : s.pc.toNat ≤ 253) :
    step s = exec (decodeFetched s.opcodeAt s.operandA s.operandB) s := by
  simp only [step, hr, fetch_ok hp, State.opcodeAt, State.operandA, State.operandB]

/-! ### Totality -/

/-- The end of a step answers whether the handler succeeded or raised a cause (60_exceptions.md R86). -/
theorem complete_next (ir : Byte) (s : State) (handled : Except Cause State) :
    ∃ t : State, complete ir s handled = .next t := by
  cases handled with
  | ok u => exact ⟨_, complete_ok ir s u⟩
  | error c => exact ⟨_, complete_error ir s c⟩

/-- Every meaning is a handler followed by the one common end of a step, an ill-formed term's too. -/
theorem exec_eq_complete (i : Instr) (s : State) :
    ∃ (ir : Byte) (handled : Except Cause State), exec i s = complete ir s handled := by
  cases i with
  | hlt => exact ⟨Op.hlt.opcode, .ok { s with status := .halted }, rfl⟩
  | unknownStalling ir => exact ⟨ir, .ok s, rfl⟩
  | unknownSkipping ir => exact ⟨ir, .ok s, rfl⟩
  | _ => exact ⟨_, _, rfl⟩

theorem exec_next (i : Instr) (s : State) : ∃ t : State, exec i s = .next t := by
  obtain ⟨ir, handled, he⟩ := exec_eq_complete i s
  rw [he]
  exact complete_next ir s handled

theorem step_next (s : State) : ∃ t : State, step s = .next t := by
  by_cases hr : s.status = .running
  · rcases Nat.lt_or_ge 253 s.pc.toNat with hp | hp
    · exact ⟨_, step_of_pc_gt hr hp⟩
    · rw [step_of_pc_le hr hp]
      exact exec_next _ s
  · exact ⟨s, step_of_stopped hr⟩

/-- Settles O13: a stopped state steps to itself, a fetch fault enters FAULTED, and every meaning ends in `complete`,
which always answers. -/
theorem stepAndExecAlwaysAnswerNext : Obligations.StepAndExecAlwaysAnswerNext :=
  ⟨step_next, exec_next⟩

end Sys2Proof.Machine
end

section
/-! PROOF. What a step from a RUNNING state can do, once for all: the effect of each dispatch table entry as a relation,
with the program-counter update carried out, and the step as a relation over it (40_execution_loop.md R50 to R54). The
two `iff` lemmas tie the relations to `exec` and `step`, so that a statement about every step is a case split over
them, and a statement about two runs rebuilds the second one by the same constructor. -/

namespace Sys2Proof.Machine

/-! ### The state a push leaves -/

/-- The state after `push(v)`: the pointer decremented and the byte stored at the new pointer (43_stack.md R69). -/
def pushed (v : Byte) (s : State) : State :=
  { decSp s with mem := Memory.write s.mem (s.reg .sp - 1).toNat v }

theorem push_eq_pushed (v : Byte) (s : State) : push v s = .ok (pushed v s) := push_eq v s

theorem storeTop_decSp (v : Byte) (s : State) : storeTop v (decSp s) = .ok (pushed v s) := push_eq v s

@[simp] theorem pushed_x (v : Byte) (s : State) : (pushed v s).x = s.x.set .sp (s.reg .sp - 1) := rfl
@[simp] theorem pushed_pc (v : Byte) (s : State) : (pushed v s).pc = s.pc := rfl
@[simp] theorem pushed_fl (v : Byte) (s : State) : (pushed v s).fl = s.fl := rfl
@[simp] theorem pushed_status (v : Byte) (s : State) : (pushed v s).status = s.status := rfl
@[simp] theorem pushed_fault (v : Byte) (s : State) : (pushed v s).fault = s.fault := rfl
@[simp] theorem pushed_mem (v : Byte) (s : State) :
    (pushed v s).mem = Memory.write s.mem (s.reg .sp - 1).toNat v := rfl
@[simp] theorem pushed_out (v : Byte) (s : State) : (pushed v s).out = s.out := rfl
theorem pushed_reg_other (v : Byte) (s : State) {r : Reg} (h : r ≠ .sp) : (pushed v s).reg r = s.reg r :=
  decSp_reg_other s h

/-! ### The effect of a dispatch table entry -/

/-- What the entry `op` with operand bytes `a` and `b` does to a RUNNING state `s`, its program-counter update
included. -/
inductive OpEffect (s : State) (a b : Byte) : Op → State → Prop where
  /-- A byte the format uses as a register index is above 7 (40_execution_loop.md R51). -/
  | badRegister {op : Op} (h : registerCheck op.format a b = false) : OpEffect s a b op (raise .invalidRegister s)
  | ldi (r : Reg) (ha : r.toByte = a) : OpEffect s a b .ldi ((s.setReg r b).setPc (s.pc + 3))
  | prn (r : Reg) (ha : r.toByte = a) :
    OpEffect s a b .prn (State.setPc { s with out := s.out ++ [s.reg r] } (s.pc + 2))
  | hlt : OpEffect s a b .hlt { s with status := .halted }
  | add (ra rb : Reg) (ha : ra.toByte = a) (hb : rb.toByte = b) :
    OpEffect s a b .add ((s.setReg ra (s.reg ra + s.reg rb)).setPc (s.pc + 3))
  | mul (ra rb : Reg) (ha : ra.toByte = a) (hb : rb.toByte = b) :
    OpEffect s a b .mul ((s.setReg ra (s.reg ra * s.reg rb)).setPc (s.pc + 3))
  | pop (r : Reg) (ha : r.toByte = a) :
    OpEffect s a b .pop ((incSp (s.setReg r (s.byteAt (s.reg .sp).toNat))).setPc (s.pc + 2))
  | push (r : Reg) (ha : r.toByte = a) :
    OpEffect s a b .push ((pushed ((decSp s).reg r) s).setPc (s.pc + 2))
  | call (r : Reg) (ha : r.toByte = a) :
    OpEffect s a b .call ((pushed (returnAddress s) s).setPc (zext9 ((decSp s).reg r)))
  | ret : OpEffect s a b .ret ((incSp s).setPc (zext9 (s.byteAt (s.reg .sp).toNat)))
  | cmp (ra rb : Reg) (ha : ra.toByte = a) (hb : rb.toByte = b) :
    OpEffect s a b .cmp (State.setPc { s with fl := compareFlags (s.reg ra) (s.reg rb) } (s.pc + 3))
  | jmp (r : Reg) (ha : r.toByte = a) : OpEffect s a b .jmp (s.setPc (zext9 (s.reg r)))
  | jeq (r : Reg) (ha : r.toByte = a) :
    OpEffect s a b .jeq (s.setPc (if s.fl = 0x01 then zext9 (s.reg r) else s.pc + 2))
  | jne (r : Reg) (ha : r.toByte = a) :
    OpEffect s a b .jne (s.setPc (if s.fl ≠ 0x01 then zext9 (s.reg r) else s.pc + 2))

/-- An entry with bit 4 clear: the length its format gives is added to `pc` (40_execution_loop.md R52). -/
theorem pcUpdate_opcode_advance {op : Op} {s : State} (hr : s.status = .running) (hop : setsPc op.opcode = false) :
    pcUpdate op.opcode s = s.setPc (s.pc + BitVec.ofNat 9 (op.format.operandCount + 1)) := by
  rw [pcUpdate_advance hr hop, decodeLen_opcode]

theorem complete_withReg {ir a : Byte} {s u t : State} {handler : Reg → Except Cause State} {r : Reg}
    (ha : r.toByte = a) (hu : handler r = .ok u) (ht : pcUpdate ir u = t) :
    complete ir s (withReg a handler) = .next t := by
  rw [← ha, withReg_toByte, hu, complete_ok, ht]

theorem complete_withRegs {ir a b : Byte} {s u t : State} {handler : Reg → Reg → Except Cause State} {ra rb : Reg}
    (ha : ra.toByte = a) (hb : rb.toByte = b) (hu : handler ra rb = .ok u) (ht : pcUpdate ir u = t) :
    complete ir s (withRegs a b handler) = .next t := by
  rw [← ha, ← hb, withRegs_toByte, hu, complete_ok, ht]

/-- The condition of JEQ is that the whole byte is EQUAL (44_control_transfer.md R73). -/
theorem isEqual_iff (fl : Byte) : isEqual fl = true ↔ fl = 0x01 := beq_iff_eq

theorem isRegIndex_eq_false {b : Byte} : isRegIndex b = false ↔ 7 < b.toNat := by
  simp [isRegIndex]

theorem exec_badRegister {op : Op} {a b : Byte} (h : registerCheck op.format a b = false) (s : State) :
    exec (op.instr a b) s = .next (raise .invalidRegister s) := by
  have one : ∀ (ir : Byte) (k : Reg → Except Cause State), isRegIndex a = false →
      complete ir s (withReg a k) = .next (raise .invalidRegister s) := fun ir k ha => by
    rw [withReg_invalid k (isRegIndex_eq_false.mp ha), complete_error]
  have two : ∀ (ir : Byte) (k : Reg → Reg → Except Cause State), (isRegIndex a && isRegIndex b) = false →
      complete ir s (withRegs a b k) = .next (raise .invalidRegister s) := fun ir k hab => by
    rw [Bool.and_eq_false_iff, isRegIndex_eq_false, isRegIndex_eq_false] at hab
    rw [withRegs_invalid k hab, complete_error]
  cases op with
  | hlt | ret => cases h
  | add | mul | cmp => exact two _ _ h
  | ldi | prn | pop | push | call | jmp | jeq | jne => exact one _ _ h

/-- The effect of an entry is what `exec` answers in a RUNNING state. -/
theorem OpEffect.exec_eq {op : Op} {a b : Byte} {s t : State} (h : OpEffect s a b op t) (hr : s.status = .running) :
    exec (op.instr a b) s = .next t := by
  cases h with
  | badRegister hc => exact exec_badRegister hc s
  | hlt => exact congrArg Host.Outcome.next (pcUpdate_stopped fun e => by cases e)
  | ldi r ha | prn r ha => exact complete_withReg ha rfl (pcUpdate_opcode_advance hr rfl)
  | add ra rb ha hb | mul ra rb ha hb | cmp ra rb ha hb =>
    exact complete_withRegs ha hb rfl (pcUpdate_opcode_advance hr rfl)
  | pop r ha =>
    exact complete_withReg ha (by rw [loadTop_eq, Except.map]) (pcUpdate_opcode_advance (op := .pop) hr rfl)
  | push r ha => exact complete_withReg ha (storeTop_decSp _ s) (pcUpdate_opcode_advance hr rfl)
  | call r ha =>
    exact complete_withReg ha (by rw [push_eq_pushed, Except.map]; rfl) (pcUpdate_setsPc _ (by decide))
  | ret =>
    change execRet s = _
    rw [execRet, pop_eq, Except.map, complete_ok, pcUpdate_setsPc _ (by decide)]
  | jmp r ha => exact complete_withReg ha rfl (pcUpdate_setsPc _ (by decide))
  | jeq r ha =>
    refine complete_withReg ha rfl ((pcUpdate_setsPc _ (by decide)).trans ?_)
    simp only [isEqual_iff, apply_ite s.setPc, jumpTo, fallThrough]
  | jne r ha =>
    refine complete_withReg ha rfl ((pcUpdate_setsPc _ (by decide)).trans ?_)
    simp only [isEqual_iff, apply_ite s.setPc, jumpTo, fallThrough, ite_not]

/-- Every entry has an effect, whatever its operand bytes. -/
theorem OpEffect.exists (s : State) (a b : Byte) (op : Op) : ∃ t : State, OpEffect s a b op t := by
  cases hc : registerCheck op.format a b with
  | false => exact ⟨_, .badRegister hc⟩
  | true =>
    have one : isRegIndex a = true → ∃ r : Reg, r.toByte = a := fun h => Reg.exists_toByte ((isRegIndex_iff a).mp h)
    have two : (isRegIndex a && isRegIndex b) = true → (∃ r : Reg, r.toByte = a) ∧ ∃ r : Reg, r.toByte = b :=
      fun h => by
        rw [Bool.and_eq_true] at h
        exact ⟨one h.1, Reg.exists_toByte ((isRegIndex_iff b).mp h.2)⟩
    cases op with
    | hlt => exact ⟨_, .hlt⟩
    | ret => exact ⟨_, .ret⟩
    | ldi => obtain ⟨r, ha⟩ := one hc; exact ⟨_, .ldi r ha⟩
    | prn => obtain ⟨r, ha⟩ := one hc; exact ⟨_, .prn r ha⟩
    | pop => obtain ⟨r, ha⟩ := one hc; exact ⟨_, .pop r ha⟩
    | push => obtain ⟨r, ha⟩ := one hc; exact ⟨_, .push r ha⟩
    | call => obtain ⟨r, ha⟩ := one hc; exact ⟨_, .call r ha⟩
    | jmp => obtain ⟨r, ha⟩ := one hc; exact ⟨_, .jmp r ha⟩
    | jeq => obtain ⟨r, ha⟩ := one hc; exact ⟨_, .jeq r ha⟩
    | jne => obtain ⟨r, ha⟩ := one hc; exact ⟨_, .jne r ha⟩
    | add => obtain ⟨⟨ra, ha⟩, rb, hb⟩ := two hc; exact ⟨_, .add ra rb ha hb⟩
    | mul => obtain ⟨⟨ra, ha⟩, rb, hb⟩ := two hc; exact ⟨_, .mul ra rb ha hb⟩
    | cmp => obtain ⟨⟨ra, ha⟩, rb, hb⟩ := two hc; exact ⟨_, .cmp ra rb ha hb⟩

/-- In a RUNNING state the effect of an entry and the answer of `exec` are the same thing. -/
theorem exec_eq_next_iff {op : Op} {a b : Byte} {s t : State} (hr : s.status = .running) :
    exec (op.instr a b) s = .next t ↔ OpEffect s a b op t := by
  refine ⟨fun h => ?_, fun h => h.exec_eq hr⟩
  obtain ⟨u, hu⟩ := OpEffect.exists s a b op
  have : Host.Outcome.next t = .next u := h.symm.trans (hu.exec_eq hr)
  injection this with htu
  rwa [htu]

/-! ### The effect of a step -/

/-- Everything a step can do, each case with the condition it happens under. -/
inductive StepEffect (s : State) : State → Prop where
  /-- HALTED or FAULTED (40_execution_loop.md R47, log entry 3). -/
  | stopped (hs : s.status ≠ .running) : StepEffect s s
  /-- The fetch faults (40_execution_loop.md R48). -/
  | fetchFault (hr : s.status = .running) (hp : 253 < s.pc.toNat) : StepEffect s (raise .outOfBounds s)
  /-- The opcode byte is an entry's. -/
  | known {op : Op} {t : State} (hr : s.status = .running) (hp : s.pc.toNat ≤ 253) (hop : op.opcode = s.opcodeAt)
    (h : OpEffect s s.operandA s.operandB op t) : StepEffect s t
  /-- An unknown opcode byte with bit 4 clear (40_execution_loop.md R53). -/
  | skip (hr : s.status = .running) (hp : s.pc.toNat ≤ 253) (hd : dispatch s.opcodeAt = none)
    (hb : setsPc s.opcodeAt = false) : StepEffect s (s.setPc (s.pc + BitVec.ofNat 9 (decodeLen s.opcodeAt)))
  /-- An unknown opcode byte with bit 4 set (40_execution_loop.md R54). -/
  | stall (hr : s.status = .running) (hp : s.pc.toNat ≤ 253) (hd : dispatch s.opcodeAt = none)
    (hb : setsPc s.opcodeAt = true) : StepEffect s s

theorem dispatch_eq_some_iff {ir : Byte} {op : Op} : dispatch ir = some op ↔ op.opcode = ir :=
  ⟨opcode_of_dispatch, fun h => h ▸ dispatch_opcode op⟩

theorem step_of_known {s : State} {op : Op} (hr : s.status = .running) (hp : s.pc.toNat ≤ 253)
    (hop : op.opcode = s.opcodeAt) : step s = exec (op.instr s.operandA s.operandB) s := by
  rw [step_of_pc_le hr hp, decodeFetched_of_some _ _ (dispatch_eq_some_iff.mpr hop)]

theorem step_of_unknown {s : State} (hr : s.status = .running) (hp : s.pc.toNat ≤ 253)
    (hd : dispatch s.opcodeAt = none) : step s = .next (pcUpdate s.opcodeAt s) := by
  rw [step_of_pc_le hr hp, decodeFetched_of_none _ _ hd, unknownInstr]
  split
  · exact complete_ok _ s s
  · exact complete_ok _ s s

theorem StepEffect.step_eq {s t : State} (h : StepEffect s t) : step s = .next t := by
  cases h with
  | stopped hs => exact step_of_stopped hs
  | fetchFault hr hp => exact step_of_pc_gt hr hp
  | known hr hp hop h => rw [step_of_known hr hp hop, h.exec_eq hr]
  | skip hr hp hd hb => rw [step_of_unknown hr hp hd, pcUpdate_advance hr hb]
  | stall hr hp hd hb => rw [step_of_unknown hr hp hd, pcUpdate_setsPc s hb]

/-- The effect relation is the step. -/
theorem step_eq_next_iff {s t : State} : step s = .next t ↔ StepEffect s t := by
  refine ⟨fun h => ?_, StepEffect.step_eq⟩
  by_cases hr : s.status = .running
  · rcases Nat.lt_or_ge 253 s.pc.toNat with hp | hp
    · rw [step_of_pc_gt hr hp] at h
      injection h with h
      exact h ▸ .fetchFault hr hp
    · cases hd : dispatch s.opcodeAt with
      | some op =>
        have hop := dispatch_eq_some_iff.mp hd
        rw [step_of_known hr hp hop, exec_eq_next_iff hr] at h
        exact .known hr hp hop h
      | none =>
        rw [step_of_unknown hr hp hd] at h
        injection h with h
        cases hb : setsPc s.opcodeAt with
        | false => rw [← h, pcUpdate_advance hr hb]; exact .skip hr hp hd hb
        | true => rw [← h, pcUpdate_setsPc s hb]; exact .stall hr hp hd hb
  · rw [step_of_stopped hr] at h
    injection h with h
    exact h ▸ .stopped hr

end Sys2Proof.Machine
end

section
/-! PROOF. The components of the state over a step, one by one: where `pc` goes (10_state.md R12), what writes a register
(R10) and the memory (R24), what writes and reads `FL` (R14), what the output holds (R17), what halts (R15). -/

namespace Sys2Proof.Machine

/-! ### The opcode byte as an entry -/

theorem opcode_inj {op op' : Op} : op.opcode = op'.opcode ↔ op = op' :=
  ⟨fun h => by simpa using congrArg dispatch h, congrArg Op.opcode⟩

theorem setsPc_iff (ir : Byte) : setsPc ir = true ↔ ir.toNat / 16 % 2 = 1 := by
  simp [setsPc, BitVec.getLsbD, Nat.testBit_eq_decide_div_mod_eq]

theorem decodeLen_eq (ir : Byte) : decodeLen ir = ir.toNat / 64 + 1 := by
  have := ir.isLt
  simp only [decodeLen, BitVec.extractLsb'_toNat, Nat.shiftRight_eq_div_pow]
  omega

theorem ne_opcode_of_unknown {ir : Byte} (hd : dispatch ir = none) (op : Op) : ir ≠ op.opcode := by
  rintro rfl
  rw [dispatch_opcode] at hd
  cases hd

/-- A step that stays RUNNING on an entry's opcode has had that entry's effect. -/
theorem StepEffect.opEffect {s t : State} (h : StepEffect s t) (hrun : t.status = .running) {op : Op}
    (hop : s.opcodeAt = op.opcode) : s.pc.toNat ≤ 253 ∧ OpEffect s s.operandA s.operandB op t := by
  cases h with
  | stopped hs => exact absurd hrun hs
  | fetchFault => cases hrun
  | known hr hp hop' h =>
    obtain rfl := opcode_inj.mp (hop'.trans hop)
    exact ⟨hp, h⟩
  | skip hr hp hd | stall hr hp hd => exact absurd hop (ne_opcode_of_unknown hd op)

/-! ### The run state -/

/-- `status` and `fault` are as before but for HLT and a register fault. -/
theorem OpEffect.status_eq {op : Op} {a b : Byte} {s t : State} (h : OpEffect s a b op t) :
    (t.status = s.status ∧ t.fault = s.fault) ∨ t = { s with status := .halted } ∨ t = raise .invalidRegister s := by
  cases h with
  | badRegister => exact .inr (.inr rfl)
  | hlt => exact .inr (.inl rfl)
  | _ => exact .inl ⟨rfl, rfl⟩

theorem OpEffect.halted_iff {op : Op} {a b : Byte} {s t : State} (h : OpEffect s a b op t) (hr : s.status = .running) :
    t.status = .halted ↔ op = .hlt := by
  have hne : s.status ≠ .halted := by simp [hr]
  cases h with
  | badRegister hc =>
    refine iff_of_false nofun ?_
    rintro rfl
    cases hc
  | hlt => exact iff_of_true rfl rfl
  | _ => exact iff_of_false hne nofun

/-! ### The program counter -/

theorem toNat_zext9 (v : Byte) : (zext9 v).toNat = v.toNat := BitVec.toNat_setWidth_of_le (by decide)

/-- With `pc` at most 253 the nine-bit sum with a length is the exact sum. -/
theorem toNat_pc_add {s : State} (hp : s.pc.toNat ≤ 253) {n : Nat} (hn : n ≤ 4) :
    (s.pc + BitVec.ofNat 9 n).toNat = s.pc.toNat + n := by
  rw [BitVec.toNat_add, BitVec.toNat_ofNat]
  omega

theorem toNat_branch {s : State} (hp : s.pc.toNat ≤ 253) (c : Prop) [Decidable c] (v : Byte) :
    (if c then zext9 v else s.pc + 2).toNat = if c then v.toNat else s.pc.toNat + 2 := by
  split
  · exact toNat_zext9 v
  · exact toNat_pc_add hp (by decide)

/-- From `pc` at most 253 an entry leaves `pc` at most 256: it adds at most 3, or positions `pc` on a byte. -/
theorem OpEffect.pc_le {op : Op} {a b : Byte} {s t : State} (h : OpEffect s a b op t) (hp : s.pc.toNat ≤ 253) :
    t.pc.toNat ≤ 256 := by
  have advance : ∀ n ≤ 3, (s.pc + BitVec.ofNat 9 n).toNat ≤ 256 := fun n hn => by
    rw [toNat_pc_add hp (by omega)]
    omega
  have position : ∀ v : Byte, (zext9 v).toNat ≤ 256 := fun v => by
    rw [toNat_zext9]
    exact v.isLt.le
  cases h with
  | badRegister | hlt => exact hp.trans (by decide)
  | ldi | add | mul | cmp => exact advance 3 (by decide)
  | prn | pop | push => exact advance 2 (by decide)
  | call | ret | jmp => exact position _
  | jeq | jne =>
    rw [State.setPc_pc]
    split
    · exact position _
    · exact advance 2 (by decide)

/-- An entry with bit 4 clear that leaves the machine RUNNING has advanced `pc` by its length. -/
theorem OpEffect.pc_advance {op : Op} {a b : Byte} {s t : State} (h : OpEffect s a b op t)
    (hrun : t.status = .running) (hop : setsPc op.opcode = false) :
    t.pc = s.pc + BitVec.ofNat 9 (op.format.operandCount + 1) := by
  cases h with
  | badRegister | hlt => cases hrun
  | call | ret | jmp | jeq | jne => exact absurd hop (by decide)
  | ldi | prn | add | mul | pop | push | cmp => rfl

theorem StepEffect.pc_advance {s t : State} (h : StepEffect s t) (hrun : t.status = .running) {ops : List Op} {n : Nat}
    (hops : ∀ op ∈ ops, setsPc op.opcode = false ∧ op.format.operandCount + 1 = n ∧ n ≤ 4)
    (hmem : s.opcodeAt ∈ ops.map Op.opcode) : t.pc.toNat = s.pc.toNat + n := by
  obtain ⟨op, hop, he⟩ := List.mem_map.mp hmem
  obtain ⟨hb, rfl, hn⟩ := hops op hop
  obtain ⟨hp, h⟩ := h.opEffect hrun he.symm
  rw [h.pc_advance hrun hb, toNat_pc_add hp hn]

/-- A step that ends HALTED or FAULTED keeps `pc`. -/
theorem StepEffect.pc_eq_of_stops {s t : State} (h : StepEffect s t) (hstop : t.status ≠ .running) : t.pc = s.pc := by
  cases h with
  | stopped | fetchFault | stall => rfl
  | skip hr => exact absurd hr hstop
  | known hr hp hop h =>
    rcases h.status_eq with ⟨hst, -⟩ | rfl | rfl
    · exact absurd (hst.trans hr) hstop
    · rfl
    · rfl

/-- A step that stays RUNNING on an opcode outside the table is the program-counter update alone. -/
theorem StepEffect.of_unknown {s t : State} (h : StepEffect s t) (hrun : t.status = .running)
    (hd : dispatch s.opcodeAt = none) :
    s.status = .running ∧ s.pc.toNat ≤ 253 ∧ t = pcUpdate s.opcodeAt s := by
  cases h with
  | stopped hs => exact absurd hrun hs
  | fetchFault => cases hrun
  | known _ _ hop => exact absurd hop.symm (ne_opcode_of_unknown hd _)
  | skip hr hp _ hb => exact ⟨hr, hp, (pcUpdate_advance hr hb).symm⟩
  | stall hr hp _ hb => exact ⟨hr, hp, (pcUpdate_setsPc s hb).symm⟩

/-- Settles O40: each row is the effect of that row's entry. -/
theorem nextPcTable : Obligations.NextPcTable := by
  intro s t _ hstep
  have h := step_eq_next_iff.mp hstep
  refine ⟨h.pc_eq_of_stops, fun hrun =>
    ⟨?threeBytes, ?twoBytes, ?hlt, ?call, ?ret, ?jmp, ?jeq, ?jne, ?skip, ?stall⟩⟩
  case threeBytes => exact h.pc_advance hrun (ops := [.ldi, .add, .mul, .cmp]) (by decide)
  case twoBytes => exact h.pc_advance hrun (ops := [.prn, .push, .pop]) (by decide)
  case hlt =>
    intro hop
    obtain ⟨-, h⟩ := h.opEffect hrun (op := .hlt) hop
    cases h with
    | badRegister | hlt => cases hrun
  case call =>
    intro hop
    obtain ⟨-, h⟩ := h.opEffect hrun (op := .call) hop
    cases h with
    | badRegister => cases hrun
    | call r ha => exact ⟨r, ha, toNat_zext9 _⟩
  case ret =>
    intro hop
    obtain ⟨-, h⟩ := h.opEffect hrun (op := .ret) hop
    cases h with
    | badRegister => cases hrun
    | ret => exact toNat_zext9 _
  case jmp =>
    intro hop
    obtain ⟨-, h⟩ := h.opEffect hrun (op := .jmp) hop
    cases h with
    | badRegister => cases hrun
    | jmp r ha => exact ⟨r, ha, toNat_zext9 _⟩
  case jeq =>
    intro hop
    obtain ⟨hp, h⟩ := h.opEffect hrun (op := .jeq) hop
    cases h with
    | badRegister => cases hrun
    | jeq r ha => exact ⟨r, ha, toNat_branch hp _ _⟩
  case jne =>
    intro hop
    obtain ⟨hp, h⟩ := h.opEffect hrun (op := .jne) hop
    cases h with
    | badRegister => cases hrun
    | jne r ha => exact ⟨r, ha, toNat_branch hp _ _⟩
  case skip =>
    intro hd hb
    have hclear : setsPc s.opcodeAt = false := by
      rw [← Bool.not_eq_true, setsPc_iff, hb]
      decide
    obtain ⟨hr, hp, rfl⟩ := h.of_unknown hrun hd
    rw [pcUpdate_advance hr hclear, State.setPc_pc, toNat_pc_add hp (decodeLen_le _), decodeLen_eq, Nat.add_assoc]
  case stall =>
    intro hd hb
    obtain ⟨-, -, rfl⟩ := h.of_unknown hrun hd
    rw [pcUpdate_setsPc s ((setsPc_iff _).mpr hb)]

/-! ### Halting -/

/-- Settles O47: among the entries only HLT halts, and outside the table nothing changes `status`. -/
theorem haltsExactlyByHlt : Obligations.HaltsExactlyByHlt := by
  intro s t hr hstep
  have h := step_eq_next_iff.mp hstep
  refine ⟨?_, fun hh => h.pc_eq_of_stops (by simp [hh])⟩
  have hne : s.status ≠ .halted := by simp [hr]
  cases h with
  | stopped hs => exact absurd hr hs
  | fetchFault _ hp => exact iff_of_false nofun fun hlt => Nat.not_le.mpr hp hlt.1
  | skip _ _ hd | stall _ _ hd => exact iff_of_false hne fun hlt => ne_opcode_of_unknown hd .hlt hlt.2
  | known _ hp hop h =>
    rw [h.halted_iff hr, ← hop]
    exact ⟨fun hlt => ⟨hp, congrArg Op.opcode hlt⟩, fun hlt => opcode_inj (op' := .hlt).mp hlt.2⟩

/-! ### Registers -/

/-- A register is as before, or the entry's column of writes names it. -/
theorem OpEffect.reg_eq {op : Op} {a b : Byte} {s t : State} (h : OpEffect s a b op t) (q : Reg) :
    t.reg q = s.reg q ∨ (op ∈ [.ldi, .add, .mul, .pop] ∧ a = q.toByte) ∨
      (q = .r7 ∧ op ∈ [.push, .pop, .call, .ret]) := by
  cases h with
  | ldi r ha | add r _ ha | mul r _ ha =>
    by_cases hq : q = r
    · exact .inr (.inl ⟨by decide, hq ▸ ha.symm⟩)
    · exact .inl (State.setReg_reg_other s _ hq)
  | pop r ha =>
    by_cases hsp : q = .r7
    · exact .inr (.inr ⟨hsp, by decide⟩)
    · by_cases hq : q = r
      · exact .inr (.inl ⟨by decide, hq ▸ ha.symm⟩)
      · exact .inl ((incSp_reg_other _ hsp).trans (State.setReg_reg_other s _ hq))
  | push | call =>
    by_cases hsp : q = .r7
    · exact .inr (.inr ⟨hsp, by decide⟩)
    · exact .inl (pushed_reg_other (returnAddress s) s hsp)
  | ret =>
    by_cases hsp : q = .r7
    · exact .inr (.inr ⟨hsp, by decide⟩)
    · exact .inl (incSp_reg_other s hsp)
  | badRegister | prn | hlt | cmp | jmp | jeq | jne => exact .inl rfl

/-- Settles O41: only an entry can change a register, and `OpEffect.reg_eq` says which one. -/
theorem registersWrittenOnlyAsListed : Obligations.RegistersWrittenOnlyAsListed := by
  intro s t q hstep hne
  cases step_eq_next_iff.mp hstep with
  | stopped | fetchFault | skip | stall => exact absurd rfl hne
  | known hr hp hop h =>
    refine ⟨hr, hp, ?_⟩
    rw [← hop]
    rcases h.reg_eq q with he | ⟨hmem, ha⟩ | ⟨hq, hmem⟩
    · exact absurd he hne
    · exact .inl ⟨List.mem_map_of_mem (f := Op.opcode) hmem, ha⟩
    · exact .inr ⟨hq, List.mem_map_of_mem (f := Op.opcode) hmem⟩

/-! ### Memory -/

/-- Memory is as before, or a byte has been pushed. -/
theorem OpEffect.mem_eq {op : Op} {a b : Byte} {s t : State} (h : OpEffect s a b op t) :
    t.mem = s.mem ∨ ∃ v : Byte, t.mem = Memory.write s.mem (s.reg .sp - 1).toNat v := by
  cases h with
  | push r ha => exact .inr ⟨_, rfl⟩
  | call r ha => exact .inr ⟨_, rfl⟩
  | _ => exact .inl rfl

/-! ### The flags byte -/

/-- The flags byte is as before, or CMP has written it in a step that did not fault. -/
theorem OpEffect.fl_eq {op : Op} {a b : Byte} {s t : State} (h : OpEffect s a b op t) :
    t.fl = s.fl ∨ (op = .cmp ∧ t.status = s.status ∧ ∃ u v : Byte, t.fl = compareFlags u v) := by
  cases h with
  | cmp ra rb ha hb => exact .inr ⟨rfl, rfl, _, _, rfl⟩
  | _ => exact .inl rfl

/-- `FL` is as before, or a CMP that did not fault wrote it. -/
theorem StepEffect.fl_eq {s t : State} (h : StepEffect s t) :
    t.fl = s.fl ∨ (s.status = .running ∧ s.pc.toNat ≤ 253 ∧ s.opcodeAt = 0xA7 ∧ t.status = .running) := by
  cases h with
  | stopped | fetchFault | skip | stall => exact .inl rfl
  | known hr hp hop h =>
    rcases h.fl_eq with hf | ⟨rfl, hst, -⟩
    · exact .inl hf
    · exact .inr ⟨hr, hp, hop.symm, hst.trans hr⟩

/-- Settles O43: `StepEffect.fl_eq`, since the flags byte is not as before. -/
theorem flagsWrittenOnlyByCmp : Obligations.FlagsWrittenOnlyByCmp := by
  intro s t hstep hne
  obtain ⟨hr, hp, hop, -⟩ := (step_eq_next_iff.mp hstep).fl_eq.resolve_left hne
  exact ⟨hr, hp, hop⟩

/-- An entry other than CMP has the same effect with another flags byte that JEQ and JNE read alike, and keeps it. -/
theorem OpEffect.with_fl {op : Op} {a b : Byte} {s t : State} (h : OpEffect s a b op t) (hcmp : op ≠ .cmp) {f : Byte}
    (hf : op = .jeq ∨ op = .jne → (s.fl = 0x01 ↔ f = 0x01)) :
    OpEffect { s with fl := f } a b op { t with fl := f } := by
  cases h with
  | badRegister hc => exact .badRegister hc
  | ldi r ha => exact .ldi r ha
  | prn r ha => exact .prn r ha
  | hlt => exact .hlt
  | add ra rb ha hb => exact .add ra rb ha hb
  | mul ra rb ha hb => exact .mul ra rb ha hb
  | pop r ha => exact .pop r ha
  | push r ha => exact .push r ha
  | call r ha => exact .call r ha
  | ret => exact .ret
  | cmp => exact absurd rfl hcmp
  | jmp r ha => exact .jmp r ha
  | jeq r ha =>
    simp only [hf (.inl rfl)]
    exact .jeq r ha
  | jne r ha =>
    simp only [ne_eq, hf (.inr rfl)]
    exact .jne r ha

/-- CMP does not read the flags byte: it writes the same one, or faults and keeps the one it had. -/
theorem OpEffect.cmp_with_fl {a b : Byte} {s t : State} (h : OpEffect s a b .cmp t) (hr : s.status = .running)
    (f : Byte) : OpEffect { s with fl := f } a b .cmp { t with fl := if t.status = .running then t.fl else f } := by
  cases h with
  | badRegister hc => exact .badRegister hc
  | cmp ra rb ha hb =>
    simp only [State.setPc_status, hr, if_true]
    exact .cmp ra rb ha hb

/-- A step depends on the flags byte only in JEQ and JNE, and on no more of it than whether it is EQUAL. -/
theorem step_with_fl {s t : State} (hstep : step s = .next t) {f : Byte}
    (hf : s.opcodeAt = 0x55 ∨ s.opcodeAt = 0x56 → (s.fl = 0x01 ↔ f = 0x01)) :
    step { s with fl := f } = .next { t with fl := if s.opcodeAt = 0xA7 ∧ t.status = .running then t.fl else f } := by
  refine StepEffect.step_eq ?_
  cases step_eq_next_iff.mp hstep with
  | stopped hs =>
    rw [if_neg fun h => hs h.2]
    exact .stopped hs
  | fetchFault hr hp =>
    rw [if_neg fun h => nomatch h.2]
    exact .fetchFault hr hp
  | skip hr hp hd hb =>
    rw [if_neg fun h => ne_opcode_of_unknown hd .cmp h.1]
    exact .skip hr hp hd hb
  | stall hr hp hd hb =>
    rw [if_neg fun h => ne_opcode_of_unknown hd .cmp h.1]
    exact .stall hr hp hd hb
  | @known op _ hr hp hop h =>
    refine .known hr hp hop ?_
    by_cases hcmp : op = .cmp
    · subst hcmp
      simp only [← hop, Op.opcode, true_and]
      exact h.cmp_with_fl hr f
    · rw [if_neg fun hA7 => hcmp (opcode_inj (op' := .cmp).mp (hop.trans hA7.1))]
      refine h.with_fl hcmp fun hj => hf ?_
      rw [← hop]
      exact hj.imp (congrArg Op.opcode) (congrArg Op.opcode)

/-- Settles O44: the opcode is not JEQ or JNE, so any two flags bytes are alike to the step. -/
theorem flagsReadOnlyByConditionalJumps : Obligations.FlagsReadOnlyByConditionalJumps := by
  intro s t f _ _ hjeq hjne hstep
  exact step_with_fl hstep fun hj => absurd hj (not_or.mpr ⟨hjeq, hjne⟩)

/-- Settles O45: two bytes that are both not EQUAL are alike to JEQ and JNE, which alone read them. -/
theorem lessAndGreaterAreAlike : Obligations.LessAndGreaterAreAlike := by
  intro s f g hf hg
  obtain ⟨t, ht⟩ := step_next { s with fl := f }
  have hu := step_with_fl ht (f := g) fun _ => iff_of_false hf hg
  refine ⟨t, _, ht, hu, rfl, ?_⟩
  by_cases hc : s.opcodeAt = 0xA7 ∧ t.status = .running
  · exact .inl (if_pos hc)
  · exact .inr ⟨(step_eq_next_iff.mp ht).fl_eq.resolve_right fun ⟨_, _, hop, hrun⟩ => hc ⟨hop, hrun⟩, if_neg hc⟩

/-! ### The output -/

/-- The output is as before, or PRN has appended its register. -/
theorem OpEffect.out_eq {op : Op} {a b : Byte} {s t : State} (h : OpEffect s a b op t) :
    t.out = s.out ∨ (op = .prn ∧ ∃ r : Reg, r.toByte = a ∧ t.out = s.out ++ [s.reg r]) := by
  cases h with
  | prn r ha => exact .inr ⟨rfl, r, ha, rfl⟩
  | _ => exact .inl rfl

theorem StepEffect.out_eq {s t : State} (h : StepEffect s t) :
    t.out = s.out ∨ s.status = .running ∧ s.pc.toNat ≤ 253 ∧ s.opcodeAt = 0x47 ∧
      ∃ r : Reg, r.toByte = s.operandA ∧ t.out = s.out ++ [s.reg r] := by
  cases h with
  | stopped | fetchFault | skip | stall => exact .inl rfl
  | known hr hp hop h =>
    rcases h.out_eq with ho | ⟨rfl, hprn⟩
    · exact .inl ho
    · exact .inr ⟨hr, hp, hop.symm, hprn⟩

/-- An entry has the same effect after any earlier output. -/
theorem OpEffect.with_out {op : Op} {a b : Byte} {s t : State} (h : OpEffect s a b op t) (earlier : List Byte) :
    OpEffect { s with out := earlier ++ s.out } a b op { t with out := earlier ++ t.out } := by
  cases h with
  | badRegister hc => exact .badRegister hc
  | ldi r ha => exact .ldi r ha
  | prn r ha =>
    simp only [State.setPc_out, ← List.append_assoc]
    exact .prn r ha
  | hlt => exact .hlt
  | add ra rb ha hb => exact .add ra rb ha hb
  | mul ra rb ha hb => exact .mul ra rb ha hb
  | pop r ha => exact .pop r ha
  | push r ha => exact .push r ha
  | call r ha => exact .call r ha
  | ret => exact .ret
  | cmp ra rb ha hb => exact .cmp ra rb ha hb
  | jmp r ha => exact .jmp r ha
  | jeq r ha => exact .jeq r ha
  | jne r ha => exact .jne r ha

theorem StepEffect.with_out {s t : State} (h : StepEffect s t) (earlier : List Byte) :
    StepEffect { s with out := earlier ++ s.out } { t with out := earlier ++ t.out } := by
  cases h with
  | stopped hs => exact .stopped hs
  | fetchFault hr hp => exact .fetchFault hr hp
  | known hr hp hop h => exact .known hr hp hop (h.with_out earlier)
  | skip hr hp hd hb => exact .skip hr hp hd hb
  | stall hr hp hd hb => exact .stall hr hp hd hb

/-- Settles O46: the output at reset is the empty list, and the two clauses about a step are read off its effect. -/
theorem outputOnlyGrowsByPrn : Obligations.OutputOnlyGrowsByPrn := by
  refine ⟨rfl, fun s t hstep => ?_⟩
  have h := step_eq_next_iff.mp hstep
  exact ⟨h.out_eq, fun earlier => (h.with_out earlier).step_eq⟩

theorem StepEffect.out_extends {s t : State} (h : StepEffect s t) : s.out <+: t.out := by
  rcases h.out_eq with ho | ⟨-, -, -, r, -, ho⟩
  · exact ⟨[], by rw [ho, List.append_nil]⟩
  · exact ⟨[s.reg r], ho.symm⟩

end Sys2Proof.Machine
end

section
/-! PROOF. The invariant (10_state.md R13, R15, 40_execution_loop.md R56): it holds at reset, every step keeps it, and so
every run does. -/

namespace Sys2Proof.Machine

/-! ### The invariant over a step -/

theorem compareFlags_mem (u v : Byte) :
    compareFlags u v = flEqual ∨ compareFlags u v = flGreater ∨ compareFlags u v = flLess := by
  unfold compareFlags
  split
  · exact .inr (.inr rfl)
  · split
    · exact .inr (.inl rfl)
    · exact .inl rfl

theorem inv_raise {c : Cause} (hc : c ≠ .unsupportedAluOperation) {s : State} (h : s.inv) : (raise c s).inv := by
  obtain ⟨hmem, hfl, hpc, -⟩ := h
  exact ⟨hmem, hfl, hpc, by simp, by simpa using hc⟩

/-- Moving `pc` within its bound keeps the invariant. -/
theorem inv_setPc {s : State} (h : s.inv) {target : PcWord} (ht : target.toNat ≤ 257) : (s.setPc target).inv := by
  obtain ⟨hmem, hfl, -, hfault⟩ := h
  exact ⟨hmem, hfl, ht, hfault⟩

theorem inv_opEffect {op : Op} {a b : Byte} {s t : State} (h : OpEffect s a b op t) (hr : s.status = .running)
    (hp : s.pc.toNat ≤ 253) (hs : s.inv) : t.inv := by
  obtain ⟨hmem, hfl, -, hfault⟩ := hs
  refine ⟨?_, ?_, (h.pc_le hp).trans (by decide), ?_⟩
  · rcases h.mem_eq with hm | ⟨v, hm⟩
    · rwa [hm]
    · rw [hm]
      exact Memory.wf_write v (BitVec.isLt _) hmem
  · rcases h.fl_eq with hf | ⟨-, -, u, v, hf⟩
    · rwa [State.flagsLegal, hf]
    · rw [State.flagsLegal, hf]
      exact .inr (compareFlags_mem u v)
  · rcases h.status_eq with ⟨hst, hft⟩ | rfl | rfl
    · rwa [State.faultLegal, hst, hft]
    · simpa [State.faultLegal, hr] using hfault
    · simp [State.faultLegal]

/-- Settles O52: the pieces above for a dispatch table entry, and for the other steps a fault, a move of `pc` or
nothing. -/
theorem stepKeepsInvariant : Obligations.StepKeepsInvariant := by
  intro s t hs h
  cases step_eq_next_iff.mp h with
  | stopped => exact hs
  | fetchFault => exact inv_raise (by decide) hs
  | known hr hp hop h => exact inv_opEffect h hr hp hs
  | skip hr hp =>
    refine inv_setPc hs ?_
    rw [toNat_pc_add hp (decodeLen_le _)]
    have := decodeLen_le s.opcodeAt
    omega
  | stall => exact hs

/-! ### Reset -/

/-- Settles O51: every component of `State.reset` is a literal within the invariant's bounds. -/
theorem resetMeetsInvariant : Obligations.ResetMeetsInvariant :=
  ⟨Memory.wf_reset, .inl rfl, Nat.zero_le _, by decide, by decide⟩

theorem resetWith_eq_some {program : List Byte} {s : State} (h : resetWith program = some s) :
    program.length ≤ 256 ∧ s = { State.reset with mem := imageFrom 0 program } := by
  unfold resetWith at h
  split at h
  · next hl => exact ⟨hl, (Option.some.inj h).symm⟩
  · cases h

theorem inv_of_resetWith {program : List Byte} {s : State} (h : resetWith program = some s) : s.inv := by
  obtain ⟨hl, rfl⟩ := resetWith_eq_some h
  obtain ⟨-, hrest⟩ := resetMeetsInvariant
  exact ⟨Memory.wf_image hl, hrest⟩

/-- Settles O1: what the image holds is `read_image`, and every other component is as at `State.reset`. -/
theorem resetLeavesEveryComponent : Obligations.ResetLeavesEveryComponent := by
  intro program hl
  refine ⟨{ State.reset with mem := imageFrom 0 program }, if_pos hl, fun r => by cases r <;> rfl,
    rfl, rfl, rfl, rfl, rfl, fun i hi => ?_, fun i hi _ => ?_⟩
  · exact (read_image program i).trans (List.getD_eq_getElem _ _ hi)
  · exact (read_image program i).trans (List.getD_eq_default _ _ hi)

/-! ### Runs -/

theorem run_succ {s t : State} (h : step s = .next t) (k : Nat) :
    Sys2Proof.core.run (k + 1) s = Sys2Proof.core.run k t := by
  simp only [Host.Core.run]
  rw [show Sys2Proof.core.step s = .next t from h]

/-- What holds of a state and is kept by every step holds after any number of steps, which always answer. -/
theorem run_induction {P : State → Prop} (keep : ∀ s t : State, P s → step s = .next t → P t) (k : Nat) {s : State}
    (hs : P s) : ∃ t : State, Sys2Proof.core.run k s = .next t ∧ P t := by
  induction k generalizing s with
  | zero => exact ⟨s, rfl, hs⟩
  | succ k ih =>
    obtain ⟨u, hu⟩ := step_next s
    rw [run_succ hu]
    exact ih (keep s u hs hu)

theorem run_add {k : Nat} {s t : State} (h : Sys2Proof.core.run k s = .next t) (j : Nat) :
    Sys2Proof.core.run (k + j) s = Sys2Proof.core.run j t := by
  induction k generalizing s with
  | zero =>
    injection h with h
    rw [Nat.zero_add, h]
  | succ k ih =>
    obtain ⟨u, hu⟩ := step_next s
    rw [run_succ hu] at h
    rw [Nat.add_right_comm, run_succ hu, ih h]

/-- Settles O53: the invariant is kept by every step from reset on, and so is that the output begins with what it was. -/
theorem runsKeepInvariant : Obligations.RunsKeepInvariant := by
  intro program s hs k
  obtain ⟨t, ht, hinv⟩ := run_induction stepKeepsInvariant k (inv_of_resetWith hs)
  refine ⟨t, ht, hinv, fun j => ?_⟩
  have keep : ∀ u v : State, t.out <+: u.out → step u = .next v → t.out <+: v.out := fun u v hu h =>
    hu.trans (step_eq_next_iff.mp h).out_extends
  obtain ⟨u, hu, more, hmore⟩ := run_induction keep j ⟨[], List.append_nil t.out⟩
  exact ⟨u, (run_add ht j).trans hu, more, hmore.symm⟩

end Sys2Proof.Machine
end

section
/-! PROOF. The memory array (20_memory.md): a read gives the last write (R21, R22), only PUSH and CALL store (R24), and
the next fetch sees a store (R34). -/

namespace Sys2Proof.Machine

/-! ### Read after write -/

theorem memRead_write_same {addr : Nat} (v : Byte) (s : State) (h : addr < 256) :
    memRead addr { s with mem := Memory.write s.mem addr v } = .ok v := by
  rw [memRead_ok _ h, State.byteAt, Memory.read_write_same]

/-- A store changes no other read, and no read faults or stops faulting by it. -/
theorem memRead_write_other {addr other : Nat} (v : Byte) (s : State) (h : other ≠ addr) :
    memRead other { s with mem := Memory.write s.mem addr v } = memRead other s := by
  rcases Nat.lt_or_ge other 256 with hlt | hge
  · rw [memRead_ok _ hlt, memRead_ok _ hlt, State.byteAt, Memory.read_write_other _ v h, State.byteAt]
  · rw [memRead_error _ hge, memRead_error _ hge]

/-- Settles O29: inside the memory both accesses succeed and the read laws say what is left; above it both fault. -/
theorem memoryReadAndWrite : Obligations.MemoryReadAndWrite := by
  intro s addr v
  constructor
  · intro hle
    have hlt : addr < 256 := Nat.lt_succ_of_le hle
    exact ⟨⟨_, memRead_ok s hlt⟩, _, memWrite_ok v s hlt, rfl, memRead_write_same v s hlt,
      fun _ hne => memRead_write_other v s hne⟩
  · intro hgt
    exact ⟨memRead_error s hgt, memWrite_error v s hgt⟩

/-! ### What stores -/

theorem OpEffect.mem_eq_or_stores {op : Op} {a b : Byte} {s t : State} (h : OpEffect s a b op t) :
    t.mem = s.mem ∨ op = .push ∨ op = .call := by
  cases h with
  | push => exact .inr (.inl rfl)
  | call => exact .inr (.inr rfl)
  | _ => exact .inl rfl

/-- What a step can do to the memory: nothing, or one store at the decremented pointer by PUSH or CALL. -/
theorem StepEffect.mem_eq {s t : State} (h : StepEffect s t) :
    t.mem = s.mem ∨ s.status = .running ∧ s.pc.toNat ≤ 253 ∧ (s.opcodeAt = 0x45 ∨ s.opcodeAt = 0x50) ∧
      ∃ v : Byte, t.mem = Memory.write s.mem (s.reg .sp - 1).toNat v := by
  cases h with
  | stopped | fetchFault | skip | stall => exact .inl rfl
  | known hr hp hop h =>
    rcases h.mem_eq with hm | hv
    · exact .inl hm
    · refine h.mem_eq_or_stores.imp_right fun hstores => ⟨hr, hp, ?_, hv⟩
      rw [← hop]
      exact hstores.imp (congrArg Op.opcode) (congrArg Op.opcode)

/-- Settles O42: the memory is not as before, so `StepEffect.mem_eq` gives the store, which changes no other address. -/
theorem memoryWrittenOnlyByPushAndCall : Obligations.MemoryWrittenOnlyByPushAndCall := by
  intro s t addr hstep hne
  rcases (step_eq_next_iff.mp hstep).mem_eq with hm | ⟨hr, hp, hop, v, hm⟩
  · exact absurd (congrArg (Memory.read · addr) hm) hne
  · refine ⟨hr, hp, hop, by_contra fun hother => hne ?_⟩
    rw [State.byteAt, hm, Memory.read_write_other _ v hother, State.byteAt]

/-! ### A fetch after a store -/

/-- Cutting the nine-bit sum to a byte is the sum modulo 256, wrapped or not (44_control_transfer.md R75). -/
theorem returnAddress_eq (s : State) : returnAddress s = BitVec.ofNat 8 (s.pc.toNat + 2) := by
  apply BitVec.eq_of_toNat_eq
  have two : (2 : PcWord).toNat = 2 := rfl
  simp only [returnAddress, BitVec.toNat_setWidth, BitVec.toNat_add, BitVec.toNat_ofNat, two]
  omega

/-- CALL R7 reads its target after the push, so it jumps to the decremented pointer (44_control_transfer.md R75). -/
theorem exec_call_sp {s : State} (hr : s.status = .running) :
    exec (.call 7) s = .next ((pushed (returnAddress s) s).setPc (zext9 (s.reg .sp - 1))) := by
  rw [← decSp_sp]
  exact (OpEffect.call (b := 0) .sp rfl).exec_eq hr

/-- A fetch from the cell a push has just written reads the byte pushed. -/
theorem opcodeAt_pushed_setPc (v : Byte) (s : State) :
    ((pushed v s).setPc (zext9 (s.reg .sp - 1))).opcodeAt = v := by
  rw [State.opcodeAt, State.setPc_pc, toNat_zext9, State.setPc_byteAt, State.byteAt, pushed_mem,
    Memory.read_write_same]

/-- Settles O50: CALL R7 leaves `pc` on the cell that holds the return address, and the next step runs what it
fetches. -/
theorem fetchSeesTheStore : Obligations.FetchSeesTheStore := by
  intro s t hr _ hcall hp
  rw [exec_call_sp hr] at hcall
  injection hcall with ht
  have hrun : t.status = .running := ht ▸ hr
  have hop : t.opcodeAt = returnAddress s := ht ▸ opcodeAt_pushed_setPc (returnAddress s) s
  rw [step_of_pc_le hrun hp, hop, returnAddress_eq]

end Sys2Proof.Machine
end

section
/-! PROOF. The encoding (30_encoding.md): decode and encode undo each other (R36, R38), the opcode map and its control
bits (R40, R41), and the two classes of unknown opcodes (R42). -/

namespace Sys2Proof

/-! ### An entry's encoding -/

/-- An entry's instruction is encoded as its opcode and the operand bytes its format uses (30_encoding.md R38). -/
theorem encode_instr (op : Op) (a b : Byte) :
    encode (op.instr a b) = op.opcode :: [a, b].take op.format.operandCount := by
  cases op <;> rfl

theorem encode_unknownInstr (ir : Byte) : encode (unknownInstr ir) = [ir] := by
  unfold unknownInstr
  split <;> rfl

/-- What a format takes as operand bytes stands at the head of the bytes it is given. -/
theorem Format.eq_append_of_operandBytes {f : Format} {bytes : List Byte} {p : Byte × Byte}
    (h : f.operandBytes bytes = some p) : ∃ rest : List Byte, bytes = [p.1, p.2].take f.operandCount ++ rest :=
  match f, bytes, h with
  | .Z, rest, _ => ⟨rest, rfl⟩
  | .R, _ :: rest, rfl => ⟨rest, rfl⟩
  | .RI, _ :: _ :: rest, rfl => ⟨rest, rfl⟩
  | .RR, _ :: _ :: rest, rfl => ⟨rest, rfl⟩

/-! ### Decode of encode -/

/-- The lookup finds the entry, and its format takes just the operand bytes that its encoding holds. -/
theorem decode_encode_instr (op : Op) (a b : Byte) (rest : List Byte) :
    decode (encode (op.instr a b) ++ rest) = .ok (op.instr a b) := by
  cases op with
  | hlt | ret => exact decode_of_some (p := (0, 0)) (dispatch_opcode _) rfl
  | prn | pop | push | call | jmp | jeq | jne => exact decode_of_some (p := (a, 0)) (dispatch_opcode _) rfl
  | ldi | add | mul | cmp => exact decode_of_some (p := (a, b)) (dispatch_opcode _) rfl

theorem decode_encode_unknownInstr {ir : Byte} (hd : dispatch ir = none) (rest : List Byte) :
    decode (encode (unknownInstr ir) ++ rest) = .ok (unknownInstr ir) := by
  rw [encode_unknownInstr]
  exact decode_of_none rest hd

theorem unknownStalling_of_wellFormed {ir : Byte} (h : (Instr.unknownStalling ir).wellFormed = true) :
    dispatch ir = none ∧ unknownInstr ir = .unknownStalling ir := by
  obtain ⟨hd, hb⟩ : dispatch ir = none ∧ setsPc ir = true := by simpa [Instr.wellFormed] using h
  exact ⟨hd, if_pos hb⟩

theorem unknownSkipping_of_wellFormed {ir : Byte} (h : (Instr.unknownSkipping ir).wellFormed = true) :
    dispatch ir = none ∧ unknownInstr ir = .unknownSkipping ir := by
  obtain ⟨hd, hb⟩ : dispatch ir = none ∧ setsPc ir = false := by simpa [Instr.wellFormed] using h
  exact ⟨hd, if_neg (by simp [hb])⟩

/-- Settles O8: a defined instruction is its entry's, with its own operand bytes, and a well-formed unknown one is what
the decoder makes of its byte. -/
theorem decodeOfEncode : Obligations.DecodeOfEncode := by
  intro i hwf rest
  cases i with
  | ldi a imm => exact decode_encode_instr .ldi a imm rest
  | prn a => exact decode_encode_instr .prn a 0 rest
  | hlt => exact decode_encode_instr .hlt 0 0 rest
  | add a b => exact decode_encode_instr .add a b rest
  | mul a b => exact decode_encode_instr .mul a b rest
  | pop a => exact decode_encode_instr .pop a 0 rest
  | push a => exact decode_encode_instr .push a 0 rest
  | call a => exact decode_encode_instr .call a 0 rest
  | ret => exact decode_encode_instr .ret 0 0 rest
  | cmp a b => exact decode_encode_instr .cmp a b rest
  | jmp a => exact decode_encode_instr .jmp a 0 rest
  | jeq a => exact decode_encode_instr .jeq a 0 rest
  | jne a => exact decode_encode_instr .jne a 0 rest
  | unknownStalling ir =>
    obtain ⟨hd, hi⟩ := unknownStalling_of_wellFormed hwf
    exact hi ▸ decode_encode_unknownInstr hd rest
  | unknownSkipping ir =>
    obtain ⟨hd, hi⟩ := unknownSkipping_of_wellFormed hwf
    exact hi ▸ decode_encode_unknownInstr hd rest

/-- Settles O7: the words are the encodings of these well-formed instructions. -/
theorem specWordsDecode : Obligations.SpecWordsDecode :=
  ⟨decodeOfEncode (.ldi 0 8) rfl [], decodeOfEncode (.prn 0) rfl [], decodeOfEncode .hlt rfl [],
    decodeOfEncode (.mul 0 1) rfl [], decodeOfEncode (.push 7) rfl [], decodeOfEncode (.call 1) rfl [],
    decodeOfEncode (.unknownSkipping 0xC3) rfl [], decodeOfEncode (.unknownStalling 0x10) rfl []⟩

/-! ### Encode of decode -/

/-- Everything the list decoder can answer: an unknown opcode's instruction, or an entry's with the operand bytes its
format takes. -/
theorem decode_cases {bytes : List Byte} {i : Instr} (h : decode bytes = .ok i) :
    (∃ (ir : Byte) (rest : List Byte), bytes = ir :: rest ∧ i = unknownInstr ir) ∨
      ∃ (op : Op) (rest : List Byte) (p : Byte × Byte),
        bytes = op.opcode :: rest ∧ op.format.operandBytes rest = some p ∧ i = op.instr p.1 p.2 := by
  unfold decode at h
  split at h
  · cases h
  · next ir rest =>
    split at h
    · exact .inl ⟨ir, rest, rfl, (Except.ok.inj h).symm⟩
    · next op hop =>
      split at h
      · next p hp => exact .inr ⟨op, rest, p, by rw [opcode_of_dispatch hop], hp, (Except.ok.inj h).symm⟩
      · cases h

/-- Settles O9: the opcode byte is the looked-up one, and the format's operand bytes stand at the head of the rest. -/
theorem encodeOfDecode : Obligations.EncodeOfDecode := by
  intro bytes i h
  rcases decode_cases h with ⟨ir, rest, rfl, rfl⟩ | ⟨op, rest, p, rfl, hp, rfl⟩
  · exact ⟨rest, by rw [encode_unknownInstr]; rfl⟩
  · obtain ⟨more, rfl⟩ := Format.eq_append_of_operandBytes hp
    exact ⟨more, by rw [encode_instr]; rfl⟩

/-! ### The opcode map -/

/-- Settles O3: the two lists are of literals, entry by entry. -/
theorem opcodeMapIsTheTable : Obligations.OpcodeMapIsTheTable := by
  unfold Obligations.OpcodeMapIsTheTable
  decide

/-- Settles O5: the bits that give the decoded length count the operand bytes, since the length is one more. -/
theorem opcodeBitsAgreeWithOperands : Obligations.OpcodeBitsAgreeWithOperands := by
  refine ⟨fun _ _ => Machine.dispatch_eq_some_iff, fun op => ?_, fun op => by cases op <;> decide⟩
  exact Nat.succ.inj ((Machine.decodeLen_eq op.opcode).symm.trans (decodeLen_opcode op))

/-! ### The unknown opcodes -/

/-- Settles O6: the class is bit 4 of the byte, and the counts run over all 256 bytes. -/
theorem unknownOpcodeClasses : Obligations.UnknownOpcodeClasses := by
  refine ⟨fun ir opa opb hd => ?_, ?skipping, ?stalling⟩
  · simp only [decodeFetched_of_none opa opb hd, unknownInstr, Machine.setsPc_iff]
  case skipping => rfl
  case stalling => rfl

end Sys2Proof
end

section
/-! PROOF. Zeroed memory: 0x00 is an unknown opcode that skips one byte (30_encoding.md R42), so a run through zeros
ends in the fetch fault at 254 (60_exceptions.md R81). -/

namespace Sys2Proof.Machine

/-- A step on the opcode byte 0x00 only moves `pc` up by one (30_encoding.md R42, 40_execution_loop.md R53). -/
theorem step_of_zero {s : State} (hr : s.status = .running) (hp : s.pc.toNat ≤ 253) (hz : s.opcodeAt = 0x00) :
    step s = .next (s.setPc (s.pc + 1)) := by
  have hd : dispatch s.opcodeAt = none := by rw [hz]; rfl
  have hb : setsPc s.opcodeAt = false := by rw [hz]; rfl
  rw [step_of_unknown hr hp hd, pcUpdate_advance hr hb, hz]
  rfl

/-- From `n` bytes below 254, with zeros up to there, `n` steps bring `pc` to 254 and change nothing else. -/
theorem run_through_zeros (n : Nat) {s : State} (hr : s.status = .running) (hp : s.pc.toNat + n = 254)
    (hz : ∀ addr : Nat, s.pc.toNat ≤ addr → addr ≤ 255 → s.byteAt addr = 0x00) :
    Sys2Proof.core.run n s = .next (s.setPc 254) := by
  induction n generalizing s with
  | zero =>
    have hpc : s.pc = 254 := BitVec.eq_of_toNat_eq hp
    rw [← hpc]
    rfl
  | succ n ih =>
    have hstep := step_of_zero hr (by omega) (hz _ le_rfl (by omega))
    have hpc : (s.pc + 1).toNat = s.pc.toNat + 1 := toNat_pc_add (n := 1) (by omega) (by decide)
    rw [run_succ hstep, ih (s := s.setPc (s.pc + 1)) hr (by rw [State.setPc_pc]; omega)
      fun addr hlo hhi => hz addr (by rw [State.setPc_pc] at hlo; omega) hhi]
    rfl

/-- Settles O54: the walk to 254, and there one more step, whose fetch faults. -/
theorem zeroedMemoryWalksToFault : Obligations.ZeroedMemoryWalksToFault := by
  intro s hr hp hz
  have hwalk := run_through_zeros (254 - s.pc.toNat) hr (by omega) hz
  have hfault : step (s.setPc 254) = .next (raise .outOfBounds (s.setPc 254)) :=
    step_of_pc_gt hr (by rw [State.setPc_pc]; decide)
  refine ⟨hwalk, ?_⟩
  rw [show 255 - s.pc.toNat = 254 - s.pc.toNat + 1 by omega, run_add hwalk, run_succ hfault]
  rfl

end Sys2Proof.Machine
end

section
/-! PROOF. The execution loop (40_execution_loop.md): a stopped machine stays as it is (R47), a step fetches and runs
the decoded instruction (R48 to R50), the register check faults exactly on an index above 7 (R51), and an unknown opcode
is skipped or spun on (R53, R54). -/

namespace Sys2Proof.Machine

/-! ### The opcode byte -/

/-- Settles O4: the two fields of the byte, as quotients of its value. -/
theorem decodedLengthAndSetsPc : Obligations.DecodedLengthAndSetsPc := fun ir =>
  ⟨decodeLen_eq ir, decodeLen_le ir, setsPc_iff ir⟩

theorem setsPc_eq_false_iff (ir : Byte) : setsPc ir = false ↔ ir.toNat / 16 % 2 = 0 := by
  rw [← Bool.not_eq_true, setsPc_iff, Nat.mod_two_not_eq_one]

/-! ### Fetch, decode, run -/

/-- Settles O10: on three bytes the list decoder is the machine's, whose instruction the step runs. -/
theorem stepRunsDecodedInstruction : Obligations.StepRunsDecodedInstruction := by
  intro s i hr hp hdec
  rw [decode_fetched] at hdec
  rw [step_of_pc_le hr hp, Except.ok.inj hdec]

/-- Placing bytes changes the memory alone. -/
theorem placeBytes_eq (bytes : List Byte) (addr : Nat) (s : State) :
    placeBytes addr bytes s = { s with mem := (placeBytes addr bytes s).mem } := by
  induction bytes generalizing addr s with
  | nil => rfl
  | cons v rest ih =>
    rw [placeBytes, ih]
    split <;> rfl

theorem placeBytes_byteAt_below (bytes : List Byte) {addr b : Nat} (s : State) (h : b < addr) :
    (placeBytes addr bytes s).byteAt b = s.byteAt b := by
  induction bytes generalizing addr s with
  | nil => rfl
  | cons v rest ih =>
    rw [placeBytes, ih _ (by omega)]
    split
    · exact Memory.read_write_other s.mem v (by omega)
    · rfl

/-- Inside the memory each byte stands where it was placed. -/
theorem placeBytes_byteAt {bytes : List Byte} {addr k : Nat} (s : State) (hk : k < bytes.length)
    (ha : addr + k < 256) : (placeBytes addr bytes s).byteAt (addr + k) = bytes[k] := by
  induction bytes generalizing addr k s with
  | nil => cases hk
  | cons v rest ih =>
    rw [placeBytes]
    cases k with
    | zero =>
      rw [if_pos (show addr < Config.memSize from ha)]
      exact (placeBytes_byteAt_below rest _ (Nat.lt_add_one addr)).trans (Memory.read_write_same s.mem addr v)
    | succ k =>
      rw [show addr + (k + 1) = addr + 1 + k by omega]
      exact ih _ (Nat.lt_of_succ_lt_succ hk) (by omega)

theorem withFetchWord_status (s : State) (nbits w : Nat) : (s.withFetchWord nbits w).status = s.status := by
  rw [State.withFetchWord, placeBytes_eq]

theorem withFetchWord_pc (s : State) (nbits w : Nat) : (s.withFetchWord nbits w).pc = s.pc := by
  rw [State.withFetchWord, placeBytes_eq]

/-- The fetch reads the three bytes of the placed word. -/
theorem withFetchWord_fetched {s : State} (hp : s.pc.toNat ≤ 253) (nbits w : Nat) :
    [(s.withFetchWord nbits w).opcodeAt, (s.withFetchWord nbits w).operandA, (s.withFetchWord nbits w).operandB] =
      tableBytes nbits w := by
  have placed : ∀ k, ∀ hk : k < 3,
      (s.withFetchWord nbits w).byteAt (s.pc.toNat + k) = (tableBytes nbits w)[k]'hk :=
    fun k hk => placeBytes_byteAt s hk (by omega)
  have first : (s.withFetchWord nbits w).byteAt s.pc.toNat = tableByte nbits w 0 := placed 0 (by decide)
  rw [State.opcodeAt, State.operandA, State.operandB, withFetchWord_pc, first, placed 1 (by decide),
    placed 2 (by decide)]
  rfl

theorem decode_of_decodeTableWord {nbits w : Nat} {i : Instr} (h : decodeTableWord nbits w = some i) :
    decode (tableBytes nbits w) = .ok i := by
  rw [decodeTableWord] at h
  cases hd : decode (tableBytes nbits w) with
  | ok j => rw [hd] at h; exact congrArg _ (Option.some.inj h)
  | error e => rw [hd] at h; cases h

/-- Settles O11: placing the word keeps `status` and `pc`, and the fetch reads the bytes that the word decodes from. -/
theorem fetchWordRuns : Obligations.FetchWordRuns := by
  intro s nbits w i hr hp hdec
  refine stepRunsDecodedInstruction _ i ?running ?inRange ?decodes
  case running => rw [withFetchWord_status, hr]
  case inRange => rwa [withFetchWord_pc]
  case decodes => rw [withFetchWord_fetched hp, decode_of_decodeTableWord hdec]

/-! ### States that a step leaves as they are -/

/-- A state that steps to itself is the same after any number of steps. -/
theorem run_of_step_self {s : State} (h : step s = .next s) (k : Nat) : Sys2Proof.core.run k s = .next s := by
  induction k with
  | zero => rfl
  | succ k ih => rw [run_succ h, ih]

/-- Settles O12: a stopped state steps to itself. -/
theorem stoppedStatesNeverChange : Obligations.StoppedStatesNeverChange := fun _ hs =>
  run_of_step_self (step_of_stopped hs)

/-! ### Unknown opcodes -/

/-- Settles O28: the program-counter update does nothing when bit 4 is set, so the step is a stall. -/
theorem stallingUnknownRule : Obligations.StallingUnknownRule := by
  intro ir hd hbit
  have hset : setsPc ir = true := (setsPc_iff ir).mpr hbit
  refine ⟨fun s => congrArg Host.Outcome.next (pcUpdate_setsPc s hset), fun s hr hp hop => ?_⟩
  subst hop
  exact run_of_step_self (StepEffect.stall hr hp hd hset).step_eq

/-- Settles O27: the program-counter update adds the decoded length, a sum that does not wrap below 254. -/
theorem skippingUnknownRule : Obligations.SkippingUnknownRule := by
  intro ir hd hbit
  have hclear : setsPc ir = false := (setsPc_eq_false_iff ir).mpr hbit
  refine ⟨fun opa opb => ?decodes, fun s hr hp =>
    ⟨s.setPc (s.pc + BitVec.ofNat 9 (decodeLen ir)), ?meaning, ?fetched, rfl, ?advance⟩⟩
  case decodes => simp [decodeFetched_of_none opa opb hd, unknownInstr, hclear]
  case meaning => exact congrArg Host.Outcome.next (pcUpdate_advance hr hclear)
  case fetched =>
    rintro rfl
    exact (StepEffect.skip hr hp hd hclear).step_eq
  case advance => rw [State.setPc_pc, toNat_pc_add hp (decodeLen_le ir), decodeLen_eq, Nat.add_assoc]

/-! ### The register check -/

/-- Which operand bytes a format's check refuses (40_execution_loop.md R51). -/
theorem registerCheck_eq_false_iff {f : Format} {a b : Byte} :
    registerCheck f a b = false ↔
      f = .R ∧ 7 < a.toNat ∨ f = .RI ∧ 7 < a.toNat ∨ f = .RR ∧ (7 < a.toNat ∨ 7 < b.toNat) := by
  cases f with
  | Z => simp [registerCheck]
  | R | RI => simp [registerCheck, isRegIndex_eq_false]
  | RR =>
    rw [registerCheck, Bool.and_eq_false_iff, isRegIndex_eq_false, isRegIndex_eq_false]
    simp

/-- From RUNNING an entry ends FAULTED only by the register check. -/
theorem OpEffect.registerCheck_of_faulted {op : Op} {a b : Byte} {s t : State} (h : OpEffect s a b op t)
    (hr : s.status = .running) (hf : t.status = .faulted) : registerCheck op.format a b = false := by
  cases h with
  | badRegister hc => exact hc
  | hlt => cases hf
  | _ => exact nomatch hr.symm.trans hf

/-- With `pc` at most 253 a step ends FAULTED only on an entry whose register check refuses the operand bytes. -/
theorem StepEffect.registerCheck_of_faulted {s t : State} (h : StepEffect s t) (hr : s.status = .running)
    (hp : s.pc.toNat ≤ 253) (hf : t.status = .faulted) :
    ∃ op : Op, dispatch s.opcodeAt = some op ∧ registerCheck op.format s.operandA s.operandB = false := by
  cases h with
  | stopped hs => exact absurd hr hs
  | fetchFault _ hgt => exact absurd hp (Nat.not_le.mpr hgt)
  | known _ _ hop h => exact ⟨_, dispatch_eq_some_iff.mpr hop, h.registerCheck_of_faulted hr hf⟩
  | skip | stall => exact nomatch hr.symm.trans hf

/-- Settles O35: a step that ends FAULTED has failed the register check, and failing it is InvalidRegister alone. -/
theorem invalidRegisterExactly : Obligations.InvalidRegisterExactly := by
  refine ⟨rfl, fun s hr hp => ?_⟩
  simp only [← registerCheck_eq_false_iff]
  refine ⟨fun h => (step_eq_next_iff.mp h).registerCheck_of_faulted hr hp rfl, ?_⟩
  rintro ⟨op, hd, hc⟩
  exact (StepEffect.known hr hp (opcode_of_dispatch hd) (.badRegister hc)).step_eq

end Sys2Proof.Machine
end

section
/-! PROOF. LDI, PRN and HLT (41_load_print_halt.md R60 to R62), and what the forms without a stack access leave alone: in
any state, stopped ones included, such a form writes its one component and moves `pc`, or enters a register fault on an
ill-formed term. -/

namespace Sys2Proof.Machine

/-! ### The rules of LDI, PRN and HLT -/

theorem exec_badFirstRegister {op : Op} (hf : op.format = .R ∨ op.format = .RI) {a : Byte} (ha : 7 < a.toNat) (b : Byte)
    (s : State) : exec (op.instr a b) s = .next (raise .invalidRegister s) := by
  refine exec_badRegister (registerCheck_eq_false_iff.mpr ?_) s
  rcases hf with hR | hRI
  · exact .inl ⟨hR, ha⟩
  · exact .inr (.inl ⟨hRI, ha⟩)

/-- Settles O14: the effect of the entry, the register check, and the fetch fault. -/
theorem ldiRule : Obligations.LdiRule := by
  refine ⟨fun a imm => ⟨encode_instr .ldi a imm, decodeFetched_opcode .ldi a imm⟩, fun s hr => ⟨?effect, ?check, ?fetch⟩⟩
  case effect => exact fun r imm => (OpEffect.ldi (b := imm) r rfl).exec_eq hr
  case check => exact fun a imm ha => exec_badFirstRegister (op := .ldi) (.inr rfl) ha imm s
  case fetch => exact step_of_pc_gt hr

/-- Settles O15: the effect of the entry, the register check, and the fetch fault. -/
theorem prnRule : Obligations.PrnRule := by
  refine ⟨fun a b => ⟨encode_instr .prn a b, decodeFetched_opcode .prn a b⟩, fun s hr => ⟨?effect, ?check, ?fetch⟩⟩
  case effect => exact fun r => (OpEffect.prn (b := 0) r rfl).exec_eq hr
  case check => exact fun a ha => exec_badFirstRegister (op := .prn) (.inl rfl) ha 0 s
  case fetch => exact step_of_pc_gt hr

/-- Settles O16: the effect of the entry, which has no operand to check, and the fetch fault. -/
theorem hltRule : Obligations.HltRule := by
  refine ⟨fun a b => ⟨encode_instr .hlt a b, decodeFetched_opcode .hlt a b⟩, fun s hr => ⟨?effect, ?fetch⟩⟩
  case effect => exact (OpEffect.hlt (a := 0) (b := 0)).exec_eq hr
  case fetch => exact step_of_pc_gt hr

/-! ### The frame of a form without a stack access -/

theorem registerCheck_RR_eq_false {a b : Byte} (h : 7 < a.toNat ∨ 7 < b.toNat) : registerCheck .RR a b = false :=
  registerCheck_eq_false_iff.mpr (.inr (.inr ⟨rfl, h⟩))

/-- The frame of a form that moves `pc` alone: a well-formed one keeps everything else, and an ill-formed one may enter a
fault. -/
def KeepsAllButPc (i : Instr) (s t : State) : Prop :=
  (∀ addr : Nat, t.byteAt addr = s.byteAt addr) ∧ (∀ q : Reg, t.reg q = s.reg q) ∧
    t.fl = s.fl ∧ t.out = s.out ∧ (i.wellFormed = true → t.status = s.status ∧ t.fault = s.fault)

theorem keepsAllButPc_of_illFormed {i : Instr} {s t : State}
    (h : i.wellFormed = false ∧ t = raise .invalidRegister s) : KeepsAllButPc i s t := by
  obtain ⟨hwf, rfl⟩ := h
  exact ⟨fun _ => rfl, fun _ => rfl, rfl, rfl, fun h => nomatch hwf.symm.trans h⟩

/-- The frame of a form that writes the register its first operand names. -/
theorem frame_of_setReg {i : Instr} {a : Byte} {s t : State}
    (h : (∃ (ir : Byte) (r : Reg) (v : Byte), Reg.ofByte a = some r ∧ t = pcUpdate ir (s.setReg r v)) ∨
      (i.wellFormed = false ∧ t = raise .invalidRegister s)) :
    (∀ addr : Nat, t.byteAt addr = s.byteAt addr) ∧ (∀ q : Reg, q.toByte ≠ a → t.reg q = s.reg q) ∧
      t.fl = s.fl ∧ t.out = s.out ∧ (i.wellFormed = true → t.status = s.status ∧ t.fault = s.fault) := by
  rcases h with ⟨ir, r, v, hr, rfl⟩ | hill
  · refine ⟨pcUpdate_byteAt ir _, fun q hq => ?_, pcUpdate_fl ir _, pcUpdate_out ir _,
      fun _ => ⟨pcUpdate_status ir _, pcUpdate_fault ir _⟩⟩
    have hne : q ≠ r := fun e => hq (e ▸ Reg.toByte_of_ofByte hr)
    rw [pcUpdate_reg, State.setReg_reg_other s v hne]
  · obtain ⟨hmem, hreg, hrest⟩ := keepsAllButPc_of_illFormed hill
    exact ⟨hmem, fun q _ => hreg q, hrest⟩

theorem keepsAllButPc_of_setPc {i : Instr} {s t : State}
    (h : (∃ target : PcWord, t = s.setPc target) ∨ (i.wellFormed = false ∧ t = raise .invalidRegister s)) :
    KeepsAllButPc i s t := by
  rcases h with ⟨target, rfl⟩ | hill
  · exact ⟨fun _ => rfl, fun _ => rfl, rfl, rfl, fun _ => ⟨rfl, rfl⟩⟩
  · exact keepsAllButPc_of_illFormed hill

theorem pcUpdate_eq_setPc (ir : Byte) (s : State) : ∃ target : PcWord, pcUpdate ir s = s.setPc target := by
  obtain ⟨target, h, -⟩ := pcUpdate_eq ir s
  exact ⟨target, h⟩

/-- A conditional jump moves `pc` whether it is taken or not. -/
theorem branch_eq_setPc (taken : Prop) [Decidable taken] (r : Reg) (s : State) :
    ∃ target : PcWord, (if taken then jumpTo r s else fallThrough s) = s.setPc target := by
  split
  · exact ⟨_, rfl⟩
  · exact ⟨_, rfl⟩

/-- Settles O38: each form's inversion lemma says that it writes its one component and moves `pc`, or that its term is
ill-formed and the register check has faulted. -/
theorem frameOfRegisterForms : Obligations.FrameOfRegisterForms := by
  intro s t i h
  refine ⟨?ldi, ?addMul, ?prn, ?cmp, ?pcOnly, ?hlt⟩
  case ldi =>
    rintro a imm rfl
    refine frame_of_setReg ((execLdi_cases h).imp ?_ ?_)
    · exact fun ⟨r, hr, ht⟩ => ⟨_, r, _, hr, ht⟩
    · exact fun ⟨ha, ht⟩ => ⟨isRegIndex_eq_false.mpr ha, ht⟩
  case addMul =>
    rintro a b (rfl | rfl)
    · refine frame_of_setReg ((execAdd_cases h).imp ?_ ?_)
      · exact fun ⟨ra, _, ha, _, ht⟩ => ⟨_, ra, _, ha, ht⟩
      · exact fun ⟨hab, ht⟩ => ⟨registerCheck_RR_eq_false hab, ht⟩
    · refine frame_of_setReg ((execMul_cases h).imp ?_ ?_)
      · exact fun ⟨ra, _, ha, _, ht⟩ => ⟨_, ra, _, ha, ht⟩
      · exact fun ⟨hab, ht⟩ => ⟨registerCheck_RR_eq_false hab, ht⟩
  case prn =>
    rintro a rfl
    rcases execPrn_cases h with ⟨r, -, rfl⟩ | ⟨ha, ht⟩
    · exact ⟨pcUpdate_byteAt _ _, pcUpdate_reg _ _, pcUpdate_fl _ _,
        fun _ => ⟨pcUpdate_status _ _, pcUpdate_fault _ _⟩⟩
    · obtain ⟨hmem, hreg, hfl, -, hstatus⟩ :=
        keepsAllButPc_of_illFormed (i := .prn a) ⟨isRegIndex_eq_false.mpr ha, ht⟩
      exact ⟨hmem, hreg, hfl, hstatus⟩
  case cmp =>
    rintro a b rfl
    rcases execCmp_cases h with ⟨ra, rb, -, -, rfl⟩ | ⟨hab, ht⟩
    · exact ⟨pcUpdate_byteAt _ _, pcUpdate_reg _ _, pcUpdate_out _ _,
        fun _ => ⟨pcUpdate_status _ _, pcUpdate_fault _ _⟩⟩
    · obtain ⟨hmem, hreg, -, hout, hstatus⟩ :=
        keepsAllButPc_of_illFormed (i := .cmp a b) ⟨registerCheck_RR_eq_false hab, ht⟩
      exact ⟨hmem, hreg, hout, hstatus⟩
  case pcOnly =>
    rintro a (rfl | rfl | rfl | rfl | rfl)
    · refine keepsAllButPc_of_setPc ((execJmp_cases h).imp ?_ ?_)
      · exact fun ⟨_, _, ht⟩ => ⟨_, ht⟩
      · exact fun ⟨ha, ht⟩ => ⟨isRegIndex_eq_false.mpr ha, ht⟩
    · refine keepsAllButPc_of_setPc ((execJeq_cases h).imp ?_ ?_)
      · exact fun ⟨r, _, ht⟩ => ht ▸ branch_eq_setPc _ r s
      · exact fun ⟨ha, ht⟩ => ⟨isRegIndex_eq_false.mpr ha, ht⟩
    · refine keepsAllButPc_of_setPc ((execJne_cases h).imp ?_ ?_)
      · rintro ⟨r, -, rfl⟩
        rw [← ite_not]
        exact branch_eq_setPc _ r s
      · exact fun ⟨ha, ht⟩ => ⟨isRegIndex_eq_false.mpr ha, ht⟩
    · exact keepsAllButPc_of_setPc (.inl (execUnknownSkipping_cases h ▸ pcUpdate_eq_setPc a s))
    · exact keepsAllButPc_of_setPc (.inl (execUnknownStalling_cases h ▸ pcUpdate_eq_setPc a s))
  case hlt =>
    rintro rfl
    obtain rfl := execHlt_cases h
    exact ⟨fun _ => rfl, fun _ => rfl, rfl, rfl, rfl, rfl⟩

end Sys2Proof.Machine
end

section
/-! PROOF. The ALU (42_alu.md): the low eight bits of the exact sum and product (R64), the unsigned comparison (R68), the
rules of ADD, MUL and CMP (R66 to R68), and the operation error that no step records (R65). -/

namespace Sys2Proof.Machine

/-! ### UnsupportedALUOperation -/

theorem alu_eq_error_iff (op : Op) (ra rb : Reg) (s : State) :
    alu op ra rb s = .error .unsupportedAluOperation ↔ op ≠ .add ∧ op ≠ .mul ∧ op ≠ .cmp := by
  cases op with
  | add | mul | cmp => exact iff_of_false nofun (by decide)
  | _ => exact iff_of_true rfl (by decide)

/-- What a step can do to `fault`: nothing, or record one of the two causes that a program can reach. -/
theorem StepEffect.fault_eq {s t : State} (h : StepEffect s t) :
    t.fault = s.fault ∨ t.fault = some .outOfBounds ∨ t.fault = some .invalidRegister := by
  cases h with
  | stopped | skip | stall => exact .inl rfl
  | fetchFault => exact .inr (.inl rfl)
  | known _ _ _ h =>
    rcases h.status_eq with ⟨-, hf⟩ | rfl | rfl
    · exact .inl hf
    · exact .inl rfl
    · exact .inr (.inr rfl)

/-- Settles O33: the ALU entry by entry, and a cause that a step has recorded is one of the other two. -/
theorem aluUnsupportedIsUnreachable : Obligations.AluUnsupportedIsUnreachable := by
  refine ⟨alu_eq_error_iff, rfl, fun s t hstep hcause => ?_⟩
  rcases (step_eq_next_iff.mp hstep).fault_eq with hf | hf | hf
  · exact hf.symm.trans hcause
  · exact nomatch hf.symm.trans hcause
  · exact nomatch hf.symm.trans hcause

/-! ### The results -/

theorem byte_add_eq_ofNat (u v : Byte) : u + v = BitVec.ofNat 8 ((u.toNat + v.toNat) % 256) :=
  BitVec.eq_of_toNat_eq (by rw [BitVec.toNat_add, BitVec.toNat_ofNat, Nat.mod_mod])

theorem byte_mul_eq_ofNat (u v : Byte) : u * v = BitVec.ofNat 8 ((u.toNat * v.toNat) % 256) :=
  BitVec.eq_of_toNat_eq (by rw [BitVec.toNat_mul, BitVec.toNat_ofNat, Nat.mod_mod])

theorem compareFlags_eq_ite (u v : Byte) :
    compareFlags u v = if u.toNat < v.toNat then 0x04 else if u.toNat > v.toNat then 0x02 else 0x01 := rfl

/-- The three flags values tell the three orders of the registers apart. -/
theorem compareFlags_eq_iff (u v : Byte) :
    (compareFlags u v = 0x04 ↔ u.toNat < v.toNat) ∧ (compareFlags u v = 0x02 ↔ v.toNat < u.toNat) ∧
      (compareFlags u v = 0x01 ↔ u = v) := by
  rw [compareFlags_eq_ite, ← BitVec.toNat_inj (x := u)]
  rcases Nat.lt_trichotomy u.toNat v.toNat with hlt | heq | hgt
  · rw [if_pos hlt]
    exact ⟨iff_of_true rfl hlt, iff_of_false (by decide) hlt.asymm, iff_of_false (by decide) hlt.ne⟩
  · rw [if_neg heq.not_lt, if_neg heq.not_gt]
    exact ⟨iff_of_false (by decide) heq.not_lt, iff_of_false (by decide) heq.not_gt, iff_of_true rfl heq⟩
  · rw [if_neg hgt.asymm, if_pos hgt]
    exact ⟨iff_of_false (by decide) hgt.asymm, iff_of_true rfl hgt, iff_of_false (by decide) hgt.ne'⟩

/-- The register an ALU operation writes reads as the result, so naming it by that read is the same state. -/
theorem setReg_eq_set_reg (s : State) (r : Reg) (v : Byte) :
    s.setReg r v = { s with x := s.x.set r ((s.setReg r v).reg r) } := by
  rw [State.setReg_reg_same, State.setReg]

/-- Settles O32: ADD and MUL write one register, with the byte operations' values, and CMP writes the flags. -/
theorem aluArithmetic : Obligations.AluArithmetic := by
  intro s ra rb
  refine ⟨⟨_, rfl, setReg_eq_set_reg s ra _, ?sum⟩, ⟨_, rfl, setReg_eq_set_reg s ra _, ?product⟩,
    ⟨_, rfl, rfl, compareFlags_eq_iff (s.reg ra) (s.reg rb)⟩⟩
  case sum => rw [State.setReg_reg_same, BitVec.toNat_add]
  case product => rw [State.setReg_reg_same, BitVec.toNat_mul]

/-! ### The rules of ADD, MUL and CMP -/

theorem exec_badRegisterPair {op : Op} (hf : op.format = .RR) {a b : Byte} (hab : 7 < a.toNat ∨ 7 < b.toNat)
    (s : State) : exec (op.instr a b) s = .next (raise .invalidRegister s) :=
  exec_badRegister (hf ▸ registerCheck_RR_eq_false hab) s

/-- Settles O17: the effect of the entry, the register check, and the fetch fault. -/
theorem addRule : Obligations.AddRule := by
  refine ⟨fun a b => ⟨encode_instr .add a b, decodeFetched_opcode .add a b⟩, fun s hr => ⟨?effect, ?check, ?fetch⟩⟩
  case effect =>
    intro ra rb
    rw [← byte_add_eq_ofNat]
    exact (OpEffect.add ra rb rfl rfl).exec_eq hr
  case check => exact fun a b hab => exec_badRegisterPair (op := .add) rfl hab s
  case fetch => exact step_of_pc_gt hr

/-- Settles O18: the effect of the entry, the register check, and the fetch fault. -/
theorem mulRule : Obligations.MulRule := by
  refine ⟨fun a b => ⟨encode_instr .mul a b, decodeFetched_opcode .mul a b⟩, fun s hr => ⟨?effect, ?check, ?fetch⟩⟩
  case effect =>
    intro ra rb
    rw [← byte_mul_eq_ofNat]
    exact (OpEffect.mul ra rb rfl rfl).exec_eq hr
  case check => exact fun a b hab => exec_badRegisterPair (op := .mul) rfl hab s
  case fetch => exact step_of_pc_gt hr

/-- Settles O19: the effect of the entry, the register check, and the fetch fault. -/
theorem cmpRule : Obligations.CmpRule := by
  refine ⟨fun a b => ⟨encode_instr .cmp a b, decodeFetched_opcode .cmp a b⟩, fun s hr => ⟨?effect, ?check, ?fetch⟩⟩
  case effect =>
    intro ra rb
    rw [← compareFlags_eq_ite]
    exact (OpEffect.cmp ra rb rfl rfl).exec_eq hr
  case check => exact fun a b hab => exec_badRegisterPair (op := .cmp) rfl hab s
  case fetch => exact step_of_pc_gt hr

end Sys2Proof.Machine
end

section
/-! PROOF. The stack (43_stack.md): the two primitives (R69, R70), the rules of POP and PUSH (R71, R72) with their pairing
property, and what the four forms that use the stack leave alone. -/

namespace Sys2Proof.Machine

/-! ### Push and pop -/

/-- The byte a push stores is the one at the decremented pointer (43_stack.md R69). -/
theorem pushed_byteAt_top (v : Byte) (s : State) : (pushed v s).byteAt (s.reg .sp - 1).toNat = v :=
  Memory.read_write_same s.mem _ v

theorem pushed_byteAt_other (v : Byte) (s : State) {addr : Nat} (h : addr ≠ (s.reg .sp - 1).toNat) :
    (pushed v s).byteAt addr = s.byteAt addr :=
  Memory.read_write_other s.mem v h

/-- The byte operation is the decrement modulo 256. -/
theorem byte_sub_one_eq_ofNat (v : Byte) : v - 1 = BitVec.ofNat 8 (v.toNat + 255) :=
  BitVec.eq_of_toNat_eq (by
    rw [BitVec.toNat_sub, BitVec.toNat_ofNat, Nat.add_comm]
    rfl)

/-- The byte operation is the increment modulo 256. -/
theorem byte_add_one_eq_ofNat (v : Byte) : v + 1 = BitVec.ofNat 8 (v.toNat + 1) :=
  BitVec.eq_of_toNat_eq (by
    rw [BitVec.toNat_add, BitVec.toNat_ofNat]
    rfl)

/-- Settles O30: push leaves the state `pushed`, whose new pointer is the decremented one. -/
theorem pushPrimitive : Obligations.PushPrimitive := by
  intro v s
  rw [← byte_sub_one_eq_ofNat]
  exact ⟨pushed v s, push_eq_pushed v s, rfl, pushed_byteAt_top v s, fun _ h => pushed_byteAt_other v s h⟩

/-- Settles O31: pop reads at the pointer as it stands and then increments it. -/
theorem popPrimitive : Obligations.PopPrimitive := by
  intro s
  rw [← byte_add_one_eq_ofNat]
  exact pop_eq s

/-! ### The rules of POP and PUSH -/

/-- POP of another register leaves the pointer one above where it was (43_stack.md R71). -/
theorem incSp_setReg_other (s : State) {r : Reg} (v : Byte) (h : r ≠ .sp) :
    incSp (s.setReg r v) = { s with x := (s.x.set r v).set .sp (s.reg .sp + 1) } := by
  rw [incSp, State.setReg_reg_other s v h.symm, State.setReg, State.setReg]

/-- POP R7 increments the byte it has just written over the pointer (43_stack.md R71). -/
theorem incSp_setReg_sp (s : State) (v : Byte) : incSp (s.setReg .sp v) = s.setReg .sp (v + 1) := by
  rw [incSp, State.setReg_reg_same, State.setReg, State.setReg_x, Regs.set_set_same, State.setReg, State.setReg]

/-- Settles O20: the effect of the entry, once for R7 and once for the others, the register check, and the fetch
fault. -/
theorem popRule : Obligations.PopRule := by
  refine ⟨fun a b => ⟨encode_instr .pop a b, decodeFetched_opcode .pop a b⟩,
    fun s hr => ⟨?other, ?sp, ?check, ?fetch⟩⟩
  case other =>
    intro r hne
    have effect := (OpEffect.pop (b := 0) r rfl).exec_eq hr
    rwa [incSp_setReg_other s _ hne] at effect
  case sp =>
    have effect := (OpEffect.pop (b := 0) .sp rfl).exec_eq hr
    rwa [incSp_setReg_sp] at effect
  case check => exact fun a ha => exec_badFirstRegister (op := .pop) (.inl rfl) ha 0 s
  case fetch => exact step_of_pc_gt hr

/-- Settles O21: the effect of the entry, which stores the register as it reads after the decrement, the register check,
and the fetch fault. -/
theorem pushRule : Obligations.PushRule := by
  refine ⟨fun a b => ⟨encode_instr .push a b, decodeFetched_opcode .push a b⟩,
    fun s hr => ⟨fun r => ⟨_, (OpEffect.push (b := 0) r rfl).exec_eq hr, rfl, ?stored, ?kept⟩, ?check, ?fetch⟩⟩
  case stored =>
    rw [State.setPc_byteAt, pushed_byteAt_top]
    exact State.setReg_reg s .sp r _
  case kept => exact fun addr hne => pushed_byteAt_other _ s hne
  case check => exact fun a ha => exec_badFirstRegister (op := .push) (.inl rfl) ha 0 s
  case fetch => exact step_of_pc_gt hr

/-! ### Pairing -/

theorem State.setReg_reg_self (s : State) (r : Reg) : s.setReg r (s.reg r) = s := by
  rw [State.setReg, State.reg, Regs.set_get_same]

/-- The pop after a push increments the pointer back. -/
theorem incSp_pushed_x (v : Byte) (s : State) : (incSp (pushed v s)).x = s.x := by
  have pointer : (pushed v s).reg .sp = s.reg .sp - 1 := decSp_sp s
  rw [incSp_x, pointer, pushed_x, Regs.set_set_same, BitVec.sub_add_cancel, State.reg, Regs.set_get_same]

/-- A POP of the byte its register already holds changes no register but the pointer. -/
theorem exec_pop_of_top_eq_reg {s : State} {r : Reg} (hr : s.status = .running)
    (htop : s.byteAt (s.reg .sp).toNat = s.reg r) :
    exec (.pop r.toByte) s = .next ((incSp s).setPc (s.pc + 2)) := by
  have effect := (OpEffect.pop (b := 0) r rfl).exec_eq hr
  rwa [htop, State.setReg_reg_self] at effect

/-- Settles O48: the byte on top after the PUSH is what the register, R7 too, then holds, so the POP only increments the
pointer back. -/
theorem pushThenPopRestoresRegisters : Obligations.PushThenPopRestoresRegisters := by
  intro s r hr
  have top := pushed_byteAt_top ((decSp s).reg r) s
  exact ⟨_, _, (OpEffect.push (b := 0) r rfl).exec_eq hr, exec_pop_of_top_eq_reg hr top,
    incSp_pushed_x ((decSp s).reg r) s, BitVec.add_assoc s.pc 2 2⟩

/-! ### The frame of a form with a stack access -/

/-- The frame of a form that pushes a byte and moves `pc`. -/
theorem frame_of_pushed {i : Instr} {s t : State}
    (h : (∃ (v : Byte) (target : PcWord), t = (pushed v s).setPc target) ∨
      (i.wellFormed = false ∧ t = raise .invalidRegister s)) :
    (∀ addr : Nat, addr ≠ ((decSp s).reg .sp).toNat → t.byteAt addr = s.byteAt addr) ∧
      (∀ q : Reg, q ≠ .r7 → t.reg q = s.reg q) ∧
      t.fl = s.fl ∧ t.out = s.out ∧ (i.wellFormed = true → t.status = s.status ∧ t.fault = s.fault) := by
  rcases h with ⟨v, target, rfl⟩ | hill
  · rw [decSp_sp]
    exact ⟨fun _ hne => pushed_byteAt_other v s hne, fun _ hne => pushed_reg_other v s hne, rfl, rfl,
      fun _ => ⟨rfl, rfl⟩⟩
  · obtain ⟨hmem, hreg, hrest⟩ := keepsAllButPc_of_illFormed hill
    exact ⟨fun addr _ => hmem addr, fun q _ => hreg q, hrest⟩

/-- Settles O39: each form's inversion lemma says that it pushes or pops a byte and moves `pc`, or that its term is
ill-formed and the register check has faulted. -/
theorem frameOfStackForms : Obligations.FrameOfStackForms := by
  intro s t i h
  refine ⟨?pushCall, ?pop, ?ret⟩
  case pushCall =>
    rintro a (rfl | rfl)
    · refine frame_of_pushed ((execPush_cases h).imp ?_ ?_)
      · rintro ⟨r, -, rfl⟩
        obtain ⟨target, moved⟩ := pcUpdate_eq_setPc Op.push.opcode (pushed ((decSp s).reg r) s)
        exact ⟨_, target, moved⟩
      · exact fun ⟨ha, ht⟩ => ⟨isRegIndex_eq_false.mpr ha, ht⟩
    · refine frame_of_pushed ((execCall_cases h).imp ?_ ?_)
      · exact fun ⟨_, _, ht⟩ => ⟨returnAddress s, _, ht⟩
      · exact fun ⟨ha, ht⟩ => ⟨isRegIndex_eq_false.mpr ha, ht⟩
  case pop =>
    rintro a rfl
    rcases execPop_cases h with ⟨r, hr, rfl⟩ | ⟨ha, ht⟩
    · refine ⟨pcUpdate_byteAt _ _, fun q hq hsp => ?_, pcUpdate_fl _ _, pcUpdate_out _ _,
        fun _ => ⟨pcUpdate_status _ _, pcUpdate_fault _ _⟩⟩
      have hne : q ≠ r := fun e => hq (e ▸ Reg.toByte_of_ofByte hr)
      rw [pcUpdate_reg, incSp_reg_other _ hsp, State.setReg_reg_other s _ hne]
    · obtain ⟨hmem, hreg, hrest⟩ :=
        keepsAllButPc_of_illFormed (i := .pop a) ⟨isRegIndex_eq_false.mpr ha, ht⟩
      exact ⟨hmem, fun q _ _ => hreg q, hrest⟩
  case ret =>
    rintro rfl
    obtain rfl := execRet_cases h
    exact ⟨fun _ => rfl, fun _ hsp => incSp_reg_other s hsp, rfl, rfl, rfl, rfl⟩

end Sys2Proof.Machine
end

section
/-! PROOF. Control transfer (44_control_transfer.md): the rules of CALL, RET, JMP, JEQ and JNE (R75 to R79), and the
return of a CALL by the next RET. -/

namespace Sys2Proof.Machine

/-! ### The return address and the target -/

/-- With `pc` at most 253 the byte CALL pushes is the exact sum (44_control_transfer.md R75). -/
theorem toNat_returnAddress {s : State} (hp : s.pc.toNat ≤ 253) : (returnAddress s).toNat = s.pc.toNat + 2 := by
  rw [returnAddress_eq, BitVec.toNat_ofNat]
  omega

/-- A jump target is the number the byte holds (44_control_transfer.md R73). -/
theorem zext9_eq_ofNat (v : Byte) : zext9 v = BitVec.ofNat 9 v.toNat := (BitVec.ofNat_toNat 9 v).symm

/-! ### CALL and RET -/

/-- Settles O22: the effect of the entry, whose target is the register as it reads after the decrement, the register
check, and the fetch fault. -/
theorem callRule : Obligations.CallRule := by
  refine ⟨fun a b => ⟨encode_instr .call a b, decodeFetched_opcode .call a b⟩,
    fun s hr => ⟨fun hp r => ⟨_, (OpEffect.call (b := 0) r rfl).exec_eq hr, rfl, ?target, ?stored, ?kept⟩, ?check,
      ?fetch⟩⟩
  case target =>
    rw [State.setPc_pc, toNat_zext9]
    exact congrArg BitVec.toNat (State.setReg_reg s .sp r _)
  case stored => rw [State.setPc_byteAt, pushed_byteAt_top, toNat_returnAddress hp]
  case kept => exact fun addr hne => pushed_byteAt_other _ s hne
  case check => exact fun a ha => exec_badFirstRegister (op := .call) (.inl rfl) ha 0 s
  case fetch => exact step_of_pc_gt hr

/-- RET in a RUNNING state: the byte on top goes to `pc` and the pointer is incremented (44_control_transfer.md R76). -/
theorem exec_ret {s : State} (hr : s.status = .running) :
    exec .ret s = .next ((incSp s).setPc (zext9 (s.byteAt (s.reg .sp).toNat))) :=
  (OpEffect.ret (a := 0) (b := 0)).exec_eq hr

/-- Settles O23: the effect of the entry, which has no operand to check, and the fetch fault. -/
theorem retRule : Obligations.RetRule := by
  refine ⟨fun a b => ⟨encode_instr .ret a b, decodeFetched_opcode .ret a b⟩, fun s hr => ⟨?effect, ?fetch⟩⟩
  case effect =>
    rw [← zext9_eq_ofNat]
    exact exec_ret hr
  case fetch => exact step_of_pc_gt hr

/-- Settles O49: the byte on top after the CALL, which keeps the pointer a push leaves, is the return address, so the
RET goes there and increments the pointer back. -/
theorem callThenRetReturns : Obligations.CallThenRetReturns := by
  intro s r hr hp
  refine ⟨_, _, (OpEffect.call (b := 0) r rfl).exec_eq hr, exec_ret hr, ?pc, incSp_pushed_x (returnAddress s) s⟩
  have top : (pushed (returnAddress s) s).byteAt ((pushed (returnAddress s) s).reg .sp).toNat = returnAddress s :=
    pushed_byteAt_top (returnAddress s) s
  rw [State.setPc_pc, toNat_zext9, State.setPc_byteAt, State.setPc_reg, top, toNat_returnAddress hp]

/-! ### JMP, JEQ and JNE -/

/-- The rule of an entry of format R that moves `pc` alone, whatever its target is (44_control_transfer.md R77 to R79):
its encoding, its effect, the register check, and the fetch fault. -/
theorem rule_of_setPc {op : Op} (hf : op.format = .R) {i : Byte → Instr} (hi : ∀ a b : Byte, op.instr a b = i a)
    {target : State → Reg → PcWord} (effect : ∀ s r, OpEffect s r.toByte 0 op (s.setPc (target s r))) :
    (∀ a b : Byte, encode (i a) = [op.opcode, a] ∧ decodeFetched op.opcode a b = i a) ∧
      ∀ s : State, s.status = .running →
        (∀ r : Reg, exec (i r.toByte) s = .next (s.setPc (target s r))) ∧
        (∀ a : Byte, 7 < a.toNat → exec (i a) s = .next (raise .invalidRegister s)) ∧
        (253 < s.pc.toNat → step s = .next (raise .outOfBounds s)) := by
  refine ⟨fun a b => ⟨?encoded, ?decoded⟩, fun s hr => ⟨fun r => ?moved, fun a ha => ?check, step_of_pc_gt hr⟩⟩
  case encoded => rw [← hi a 0, encode_instr, hf]; rfl
  case decoded => rw [decodeFetched_opcode, hi]
  case moved => rw [← hi _ 0]; exact (effect s r).exec_eq hr
  case check => rw [← hi a 0]; exact exec_badFirstRegister (.inl hf) ha 0 s

/-- Settles O24: the target of JMP is the register. -/
theorem jmpRule : Obligations.JmpRule := by
  unfold Obligations.JmpRule
  simp only [← zext9_eq_ofNat]
  exact rule_of_setPc (op := .jmp) rfl (fun _ _ => rfl) fun _ r => .jmp r rfl

/-- Settles O25: the target of JEQ is the register if the flags byte is EQUAL, else `pc + 2`. -/
theorem jeqRule : Obligations.JeqRule := by
  unfold Obligations.JeqRule
  simp only [← zext9_eq_ofNat]
  exact rule_of_setPc (op := .jeq) rfl (fun _ _ => rfl) fun _ r => .jeq r rfl

/-- Settles O26: the target of JNE is the register if the flags byte is not EQUAL, else `pc + 2`. -/
theorem jneRule : Obligations.JneRule := by
  unfold Obligations.JneRule
  simp only [← zext9_eq_ofNat]
  exact rule_of_setPc (op := .jne) rfl (fun _ _ => rfl) fun _ r => .jne r rfl

end Sys2Proof.Machine
end

section
/-! PROOF. Fault entry (60_exceptions.md): the fetch fault and the condition it happens under (R81), the precise state
of a step that ends FAULTED (R86), and which fault a step reports (R88). -/

namespace Sys2Proof.Machine

/-- From RUNNING a step either records no cause and does not end FAULTED, or is the entry of one of two faults, told
apart by `pc`. -/
theorem StepEffect.fault_cases {s t : State} (h : StepEffect s t) (hr : s.status = .running) :
    (t.status ≠ .faulted ∧ t.fault = s.fault) ∨
      (253 < s.pc.toNat ∧ t = raise .outOfBounds s) ∨ (s.pc.toNat ≤ 253 ∧ t = raise .invalidRegister s) := by
  have running_ne : s.status ≠ .faulted := fun hf => nomatch hr.symm.trans hf
  cases h with
  | stopped hs => exact absurd hr hs
  | fetchFault _ hp => exact .inr (.inl ⟨hp, rfl⟩)
  | skip | stall => exact .inl ⟨running_ne, rfl⟩
  | known _ hp _ h =>
    rcases h.status_eq with ⟨hs, hf⟩ | rfl | rfl
    · exact .inl ⟨hs ▸ running_ne, hf⟩
    · exact .inl ⟨nofun, rfl⟩
    · exact .inr (.inr ⟨hp, rfl⟩)

/-- Settles O34: above 253 the fetch faults, and a step from below records nothing or InvalidRegister. -/
theorem outOfBoundsExactlyAbove253 : Obligations.OutOfBoundsExactlyAbove253 := by
  refine ⟨rfl, fun s hr => ⟨step_of_pc_gt hr, fun hp t hstep hcause => ?_⟩⟩
  rcases (step_eq_next_iff.mp hstep).fault_cases hr with ⟨-, hf⟩ | ⟨hgt, -⟩ | ⟨-, rfl⟩
  · exact hf.symm.trans hcause
  · exact absurd hp (Nat.not_le.mpr hgt)
  · cases hcause

/-- Settles O36: a step that ends FAULTED is one of the two fault entries, each on the state before the step. -/
theorem faultEntryIsPrecise : Obligations.FaultEntryIsPrecise := by
  refine ⟨fun _ _ => rfl, fun c => ?code, fun s t hr hstep hfaulted => ?entry⟩
  case code => cases c <;> decide
  case entry =>
    rcases (step_eq_next_iff.mp hstep).fault_cases hr with ⟨hs, -⟩ | ⟨-, ht⟩ | ⟨-, ht⟩
    · exact absurd hfaulted hs
    · exact .inl ht
    · exact .inr ht

/-- A fetched entry with two register operands, at least one above 7, enters the one InvalidRegister. -/
theorem step_badRegisterPair {s : State} {op : Op} (hf : op.format = .RR) (hr : s.status = .running)
    (hp : s.pc.toNat ≤ 253) (hop : op.opcode = s.opcodeAt) (hab : 7 < s.operandA.toNat ∨ 7 < s.operandB.toNat) :
    step s = .next (raise .invalidRegister s) := by
  rw [step_of_known hr hp hop, exec_badRegisterPair hf hab]

/-- Settles O37: the fetch fault looks at no byte, and the register check of ADD, MUL and CMP reports one cause. -/
theorem faultPriority : Obligations.FaultPriority := by
  refine fun s hr => ⟨step_of_pc_gt hr, fun hp hop ha _ => ?_⟩
  rcases hop with hadd | hmul | hcmp
  · exact step_badRegisterPair (op := .add) rfl hr hp hadd.symm (.inl ha)
  · exact step_badRegisterPair (op := .mul) rfl hr hp hmul.symm (.inl ha)
  · exact step_badRegisterPair (op := .cmp) rfl hr hp hcmp.symm (.inl ha)

end Sys2Proof.Machine
end

section
/-! PROOF. Reset with the empty program, and the programs that have no image (70_reset_and_hazards.md R93, R94). -/

namespace Sys2Proof.Machine

/-- A program that fits has the image R94 gives it. -/
theorem resetWith_of_length_le {program : List Byte} (h : program.length ≤ 256) :
    resetWith program = some { State.reset with mem := imageFrom 0 program } := if_pos h

/-- A program that does not fit has no image: any state it reset to would bound its length by `resetWith_eq_some`. -/
theorem resetWith_of_length_gt {program : List Byte} (h : 256 < program.length) : resetWith program = none := by
  refine Option.eq_none_iff_forall_ne_some.mpr fun s hs => ?_
  obtain ⟨hle, -⟩ := resetWith_eq_some hs
  exact absurd hle (Nat.not_le.mpr h)

/-- Settles O2: the empty program fits and its image lists no cell, the host's core resets to `State.reset`, and a
program longer than memory does not fit. -/
theorem resetIsTheEmptyImage : Obligations.ResetIsTheEmptyImage :=
  ⟨resetWith_of_length_le (Nat.zero_le 256), rfl, fun _ => resetWith_of_length_gt⟩

end Sys2Proof.Machine
end
